-- ==== Sys2Proof/Word.lean ====
section
/-! DEFINITION. The two widths of data the block moves: one stream element and one value or buffer. -/

namespace Sys2Proof

/-- One element of a byte stream (spec/00_scope.md R10, `BYTE_W`). -/
abbrev Byte := BitVec 8

/-- A request value, a record buffer, a decoded value (spec/00_scope.md R10, `VALUE_W`; spec/10_state.md R21). -/
abbrev Word := BitVec 64

end Sys2Proof
end

