-- ==== Sys2Proof/Config.lean ====
section
/-! DEFINITION. The parameters the spec fixes, and the values it leaves open as constants without a body. -/

namespace Sys2Proof.Config

/-- `BUF_BYTES`, the size of each unit's record buffer (spec/00_scope.md R10, spec/10_state.md R21). -/
def bufBytes : Nat := 8

/-- `MAX_VALUE`, the largest encodable value (spec/00_scope.md R10). -/
def maxValue : Nat := 2 ^ 61 - 1

/-- The most transfers one operation makes: request, eight stream transfers, response (spec/60_exceptions.md R203). -/
def maxTransfers : Nat := 10

/-!
What a reset edge leaves in the registers the spec calls "unspecified" (spec/10_state.md R40, R41;
spec/70_reset_and_hazards.md R230). Each is applied to the state's counter `fresh`, so that two reset edges
need not leave the same value. Assumption log entry 7.
-/

/-- `enc.buf` after a reset edge. -/
opaque encBufAfterReset : Nat → Word
/-- `enc.cap` after a reset edge. -/
opaque encCapAfterReset : Nat → BitVec 4
/-- `enc.idx` after a reset edge. -/
opaque encIdxAfterReset : Nat → BitVec 4
/-- `enc.status` after a reset edge, as the 2-bit code it holds. -/
opaque encStatusAfterReset : Nat → BitVec 2
/-- `dec.buf` after a reset edge. -/
opaque decBufAfterReset : Nat → Word
/-- `dec.k` after a reset edge, as the 2-bit index it holds. -/
opaque decKAfterReset : Nat → BitVec 2
/-- `dec.idx` after a reset edge. -/
opaque decIdxAfterReset : Nat → BitVec 4
/-- `dec.status` after a reset edge, as the 2-bit code it holds. -/
opaque decStatusAfterReset : Nat → BitVec 2

end Sys2Proof.Config
end

