-- ==== Sys2Proof/Machine/Lut.lean ====
section
/-! DEFINITION. `width_class_lut`: the width class table and its two lookups, each also in the spec's second form
as logic (spec/40_width_class_lut.md; spec/41_encoder.md R149; spec/42_decoder.md R163). -/

namespace Sys2Proof.Machine

/-- The four width classes, class index `k` = 0, 1, 2, 3 (spec/40_width_class_lut.md R110). -/
inductive WidthClass where
  | one    -- k = 0, the 1-byte class, format REC1
  | two    -- k = 1, the 2-byte class, format REC2
  | four   -- k = 2, the 4-byte class, format REC4
  | eight  -- k = 3, the 8-byte class, format REC8
  deriving DecidableEq, Repr

/-- One word of the table, in the field widths of spec/40_width_class_lut.md R118. -/
structure LutRow where
  byteCapacity : BitVec 4
  tagSize      : BitVec 2
  tagPattern   : BitVec 3
  payloadBits  : BitVec 6
  deriving DecidableEq, Repr

/-- The table itself (spec/40_width_class_lut.md R110). -/
def lut : WidthClass → LutRow
  | .one   => ⟨1, 1, 1, 7⟩
  | .two   => ⟨2, 2, 2, 14⟩
  | .four  => ⟨4, 3, 4, 29⟩
  | .eight => ⟨8, 3, 0, 61⟩

/-- The classes in table order, the order in which both lookups test them (spec/40_width_class_lut.md R113). -/
def WidthClass.all : List WidthClass := [.one, .two, .four, .eight]

/-- The class index `k` (spec/40_width_class_lut.md R110). -/
def WidthClass.index : WidthClass → BitVec 2
  | .one => 0
  | .two => 1
  | .four => 2
  | .eight => 3

/-- The class whose index is `k`. -/
def WidthClass.ofIndex (k : BitVec 2) : WidthClass :=
  match k.toNat with
  | 0 => .one
  | 1 => .two
  | 2 => .four
  | _ => .eight

/-- `cap(k)` (spec/00_scope.md R18). -/
def WidthClass.cap (k : WidthClass) : Nat := (lut k).byteCapacity.toNat

/-- `ts(k)` (spec/00_scope.md R18). -/
def WidthClass.ts (k : WidthClass) : Nat := (lut k).tagSize.toNat

/-- `tp(k)` as bits of byte 0 (spec/00_scope.md R12, R18). -/
def WidthClass.tp (k : WidthClass) : Byte := (lut k).tagPattern.setWidth 8

/-- `pb(k)` (spec/00_scope.md R18). -/
def WidthClass.pb (k : WidthClass) : Nat := (lut k).payloadBits.toNat

/-- `mask(k) = 2^ts(k) - 1` (spec/40_width_class_lut.md R117). -/
def WidthClass.mask (k : WidthClass) : Byte := BitVec.ofNat 8 (2 ^ k.ts - 1)

/-- Lookup by value: the first class with `v < 2^pb(k)` (spec/40_width_class_lut.md R115). -/
def select (v : Word) : Option WidthClass :=
  WidthClass.all.find? fun k => decide (v.toNat < 2 ^ k.pb)

/-- Lookup by first byte: the first class whose tag the byte's low bits equal. The answer `none` is the source's
InvalidTagError; no byte gives it, and the arm is kept (spec/40_width_class_lut.md R116, spec/42_decoder.md R175). -/
def matchTag (b : Byte) : Option WidthClass :=
  WidthClass.all.find? fun k => b &&& k.mask == k.tp

/-- The selector as a priority test on the leading bits (spec/41_encoder.md R149). -/
def selectLogic (v : Word) : Option WidthClass :=
  if v.extractLsb' 61 3 ≠ 0 then none
  else if v.extractLsb' 29 32 ≠ 0 then some .eight
  else if v.extractLsb' 14 15 ≠ 0 then some .four
  else if v.extractLsb' 7 7 ≠ 0 then some .two
  else some .one

/-- What the width class resolver hands on: the class, how many bytes the record has, how far to shift. -/
structure Resolved where
  k   : WidthClass
  cap : Nat
  ts  : Nat
  deriving DecidableEq, Repr

/-- The resolver as logic on the first byte, its last arm dead (spec/42_decoder.md R163). -/
def resolve (first : Byte) : Option Resolved :=
  if first.extractLsb' 0 1 = 1#1 then some ⟨.one, 1, 1⟩
  else if first.extractLsb' 0 2 = 2#2 then some ⟨.two, 2, 2⟩
  else if first.extractLsb' 0 3 = 4#3 then some ⟨.four, 4, 3⟩
  else if first.extractLsb' 0 3 = 0#3 then some ⟨.eight, 8, 3⟩
  else none

end Sys2Proof.Machine
end

