-- ==== Sys2Proof/Syntax.lean ====
section
/-! DEFINITION. The nine operations of the block, one constructor per row of spec/opcode_table.json
(spec/30_encoding.md R96). -/

namespace Sys2Proof

/-- An operation together with what selects its variant: an `ENC` with its request value, a `DEC` with the first
byte pulled from the source (spec/30_encoding.md R94, R96). -/
inductive Instr where
  | enc1   (v : Word)      -- ENC.1: encode into the 1-byte class
  | enc2   (v : Word)      -- ENC.2: encode into the 2-byte class
  | enc4   (v : Word)      -- ENC.4: encode into the 4-byte class
  | enc8   (v : Word)      -- ENC.8: encode into the 8-byte class
  | encErr (v : Word)      -- ENC.ERR: the value is out of range
  | dec1   (first : Byte)  -- DEC.1: decode a 1-byte record
  | dec2   (first : Byte)  -- DEC.2: decode a 2-byte record
  | dec4   (first : Byte)  -- DEC.4: decode a 4-byte record
  | dec8   (first : Byte)  -- DEC.8: decode an 8-byte record
  deriving DecidableEq, Repr

end Sys2Proof
end

