-- ==== Sys2Proof/WellFormed.lean ====
section
/-! DEFINITION. Which operands a variant can have: the exact value range of an `ENC` row
(spec/30_encoding.md R93) and the tag of a `DEC` row (spec/30_encoding.md R88). -/

namespace Sys2Proof

/-- The operand is one that selects this variant. -/
def Instr.wf : Instr → Bool
  | .enc1 v     => decide (v.toNat ≤ 127)
  | .enc2 v     => decide (128 ≤ v.toNat) && decide (v.toNat ≤ 16383)
  | .enc4 v     => decide (16384 ≤ v.toNat) && decide (v.toNat ≤ 536870911)
  | .enc8 v     => decide (536870912 ≤ v.toNat) && decide (v.toNat ≤ 2305843009213693951)
  | .encErr v   => decide (2305843009213693952 ≤ v.toNat)
  | .dec1 first => first &&& 0x01#8 == 0x01#8
  | .dec2 first => first &&& 0x03#8 == 0x02#8
  | .dec4 first => first &&& 0x07#8 == 0x04#8
  | .dec8 first => first &&& 0x07#8 == 0x00#8

end Sys2Proof
end

