-- ==== Sys2Proof/Decode.lean ====
section
/-! DEFINITION. Which operation a request starts: the request value selects an `ENC` variant, the first byte of a
record a `DEC` variant. Then the encoder, and the rows of spec/opcode_table.json. -/

namespace Sys2Proof

open Sys2Proof.Machine

/-- What an operation is read from; which of the two it is is fixed by the port it arrives on
(spec/30_encoding.md R94). -/
inductive Code where
  | request (value : Word)   -- an ENC request on the encoder request port: the value, and no opcode bits
  | record  (first : Byte)   -- byte 0 of a record, the answer to the first pull of a DEC
  deriving DecidableEq, Repr

/-- The one way a code can be refused, by name. -/
inductive DecodeError where
  | invalidTag   -- no class's tag matches the first byte: the source's InvalidTagError, a dead arm (spec/42_decoder.md R175)
  deriving DecidableEq, Repr

/-- The variant an `ENC` request value selects; every value selects one (spec/30_encoding.md R93, spec/41_encoder.md R131). -/
def decodeRequest (v : Word) : Instr :=
  match select v with
  | some .one   => .enc1 v
  | some .two   => .enc2 v
  | some .four  => .enc4 v
  | some .eight => .enc8 v
  | none        => .encErr v

/-- The variant a first byte selects (spec/30_encoding.md R88, spec/42_decoder.md R162). -/
def decodeFirst (b : Byte) : Except DecodeError Instr :=
  match matchTag b with
  | some .one   => .ok (.dec1 b)
  | some .two   => .ok (.dec2 b)
  | some .four  => .ok (.dec4 b)
  | some .eight => .ok (.dec8 b)
  | none        => .error .invalidTag

/-- The operation a code names. -/
def decode : Code → Except DecodeError Instr
  | .request v => .ok (decodeRequest v)
  | .record b  => decodeFirst b

/-- The code of an operation: what the environment puts on the port to have it run. -/
def encode : Instr → Code
  | .enc1 v     => .request v
  | .enc2 v     => .request v
  | .enc4 v     => .request v
  | .enc8 v     => .request v
  | .encErr v   => .request v
  | .dec1 first => .record first
  | .dec2 first => .record first
  | .dec4 first => .record first
  | .dec8 first => .record first

/-- The code that an opcode-table word of `nbits` bits stands for: a `DEC` row's word is bytes of a record, its first
byte in bits 7..0; an `ENC` row's word is the 64-bit request value, of which the table names 64 bits (its mask) or
none (an `ENC` request has no opcode bits). Assumption log entry 13. -/
def tableCode (nbits w : Nat) : Option Code :=
  if nbits = 0 ∨ nbits = 64 then some (.request (BitVec.ofNat 64 w))
  else if nbits < 64 then some (.record (BitVec.ofNat 8 w))
  else none

/-- The host's question: what this decoder reads from a word of the opcode table. -/
def decodeTableWord (nbits w : Nat) : Option Instr :=
  match tableCode nbits w with
  | none => none
  | some c =>
    match decode c with
    | .ok i => some i
    | .error _ => none

/-- A row's `mask` in spec/opcode_table.json, on the code's own width (64 bits for `ENC`, 8 for `DEC`). -/
def Instr.tableMask : Instr → Nat
  | .enc1 _   => 0xFFFFFFFFFFFFFF80
  | .enc2 _   => 0xFFFFFFFFFFFFC000
  | .enc4 _   => 0xFFFFFFFFE0000000
  | .enc8 _   => 0xE000000000000000
  | .encErr _ => 0
  | .dec1 _   => 0x01
  | .dec2 _   => 0x03
  | .dec4 _   => 0x07
  | .dec8 _   => 0x07

/-- A row's `match` in spec/opcode_table.json. -/
def Instr.tableMatch : Instr → Nat
  | .enc1 _   => 0
  | .enc2 _   => 0
  | .enc4 _   => 0
  | .enc8 _   => 0
  | .encErr _ => 0
  | .dec1 _   => 0x01
  | .dec2 _   => 0x02
  | .dec4 _   => 0x04
  | .dec8 _   => 0x00

/-- The bits of a code as a number. -/
def Code.bits : Code → Nat
  | .request v => v.toNat
  | .record b  => b.toNat

end Sys2Proof
end

