-- ==== Sys2Proof/Machine/State.lean ====
section
/-! DEFINITION. The state of the block and of what the environment holds, as plain data; the reasons a step can stop;
the state right after reset (spec/10_state.md). -/

namespace Sys2Proof.Machine

/-- The status of an operation, one of the four 2-bit codes (spec/60_exceptions.md R201). -/
inductive Status where
  | ok      -- OK, code 0
  | range   -- RANGE, code 1: RangeError
  | trunc   -- TRUNC, code 2: TruncatedInputError
  | invTag  -- INVTAG, code 3: InvalidTagError
  deriving DecidableEq, Repr

/-- The encoder unit's states (spec/10_state.md R22). -/
inductive EncSt where
  | idle  -- E_IDLE
  | emit  -- E_EMIT
  | resp  -- E_RESP
  deriving DecidableEq, Repr

/-- The decoder unit's states (spec/10_state.md R23). -/
inductive DecSt where
  | idle   -- D_IDLE
  | first  -- D_FIRST
  | rest   -- D_REST
  | resp   -- D_RESP
  deriving DecidableEq, Repr

/-- The encoder unit's registers (spec/10_state.md R21, R22, R24). -/
structure EncUnit where
  st     : EncSt     -- enc.st
  buf    : Word      -- enc.buf[63:0]
  cap    : BitVec 4  -- enc.cap[3:0]
  idx    : BitVec 4  -- enc.idx[3:0]
  status : Status    -- enc.status[1:0]
  deriving DecidableEq, Repr

/-- The decoder unit's registers (spec/10_state.md R21, R23, R24). -/
structure DecUnit where
  st     : DecSt     -- dec.st
  buf    : Word      -- dec.buf[63:0]
  k      : WidthClass     -- dec.k[1:0]
  idx    : BitVec 4  -- dec.idx[3:0]
  status : Status    -- dec.status[1:0]
  deriving DecidableEq, Repr

/-- The source's answer to a pull (spec/00_scope.md R16, spec/10_state.md R35). -/
inductive Answer where
  | byte (b : Byte)  -- a transfer with src_eos = 0
  | exhausted        -- a transfer with src_eos = 1
  deriving DecidableEq, Repr

/-- An `ENC` response (spec/30_encoding.md R95, spec/10_state.md R33). -/
structure EncRsp where
  status : Status
  count  : BitVec 8
  deriving DecidableEq, Repr

/-- A `DEC` response (spec/30_encoding.md R95, spec/10_state.md R36). -/
structure DecRsp where
  status : Status
  value  : Word
  deriving DecidableEq, Repr

/-- The input pins of the block at one rising edge of `clk` (spec/10_state.md R30). The payload of the source port is
not here: the source answers with the head of its list of answers (spec/20_memory.md R60). -/
structure Pins where
  rst         : Bool
  encReq      : Option Word  -- enc_req_valid, with enc_req_value when it is 1
  snkReady    : Bool         -- snk_ready
  encRspReady : Bool         -- enc_rsp_ready
  decReqValid : Bool         -- dec_req_valid
  srcValid    : Bool         -- src_valid
  decRspReady : Bool         -- dec_rsp_ready
  deriving DecidableEq, Repr

/-- What the environment does next (spec/20_memory.md R57). -/
inductive Event where
  | edge (p : Pins)   -- one rising edge with these input pins
  | encOp (v : Word)  -- one whole ENC with this value: every transfer of it is completed, one after the other
  | decOp             -- one whole DEC, in the same way
  deriving DecidableEq, Repr

/-- The two units' registers, and what the environment holds: the answers the source will give, the bytes the sink has
received, the responses the requester has taken, the events still to come. `fresh` is the model's own counter for free
values. Assumption log entries 1, 2, 8. -/
structure State where
  enc     : EncUnit
  dec     : DecUnit
  source  : List Answer
  sink    : List Byte
  encRsps : List EncRsp
  decRsps : List DecRsp
  sched   : List Event
  fresh   : Nat
  deriving DecidableEq, Repr

/-- The reasons a step can fault: none. The block has no trap; its errors are results (spec/60_exceptions.md R200, R203),
and a stalled port is a unit that waits (spec/70_reset_and_hazards.md R244). Nothing raises one, so nothing is unsafe
about it. Assumption log entry 22. -/
inductive Fault where
  deriving DecidableEq, Repr

/-- The reasons a step can be refused. -/
inductive Refusal where
  /-- An operation that has no meaning yet, by its mnemonic. Raised by an arm of `exec` only, and by none now. Safe. -/
  | notModelled (mnemonic : String)
  deriving DecidableEq, Repr

/-- The encoder unit after reset: `enc.st` as spec/10_state.md R40 says; the other registers, which it leaves
unspecified, at a value of the model's choice. DESIGN CHOICE, unsafe: assumption log entry 6. -/
def EncUnit.reset : EncUnit := { st := .idle, buf := 0, cap := 0, idx := 0, status := .ok }

/-- The decoder unit after reset: `dec.st` as spec/10_state.md R41 says; the other registers, which it leaves
unspecified, at a value of the model's choice. DESIGN CHOICE, unsafe: assumption log entry 6. -/
def DecUnit.reset : DecUnit := { st := .idle, buf := 0, k := .one, idx := 0, status := .ok }

/-- The machine right after reset, with an environment that has done nothing and has nothing planned
(spec/10_state.md R40 to R42). Assumption log entries 1, 5, 6, 8, 18. -/
def State.reset : State :=
  { enc := EncUnit.reset, dec := DecUnit.reset, source := [], sink := [], encRsps := [], decRsps := [],
    sched := [], fresh := 0 }

end Sys2Proof.Machine
end

