-- ==== Sys2Proof/Machine/Flags.lean ====
section
/-! DEFINITION. The block has no flags and no condition codes (spec/10_state.md R28); the outcome of an operation is
the 2-bit status of its response, whose codes are here (spec/60_exceptions.md R201). -/

namespace Sys2Proof.Machine

/-- The 2-bit code of a status at the pins. -/
def Status.code : Status → BitVec 2
  | .ok => 0
  | .range => 1
  | .trunc => 2
  | .invTag => 3

/-- The status a 2-bit code stands for. -/
def Status.ofCode (c : BitVec 2) : Status :=
  match c.toNat with
  | 0 => .ok
  | 1 => .range
  | 2 => .trunc
  | _ => .invTag

end Sys2Proof.Machine
end

