-- ==== Sys2Proof/Machine/Operands.lean ====
section
/-! DEFINITION. The operand forms: byte lanes of a 64-bit buffer, the tagged record of a value, the payload of a
record (spec/00_scope.md R14; spec/30_encoding.md R80 to R87; spec/41_encoder.md R137; spec/42_decoder.md R168). -/

namespace Sys2Proof.Machine

/-- `x[8*i+7 : 8*i]` (spec/10_state.md R21). Beyond bit 63 it reads 0; no run gets there (assumption log entry 17). -/
def byteLane (x : Word) (i : Nat) : Byte := x.extractLsb' (8 * i) 8

/-- `x` with `x[8*i+7 : 8*i] <- b` (spec/42_decoder.md R171, R172). -/
def setByteLane (x : Word) (i : Nat) (b : Byte) : Word :=
  (x &&& ~~~(0xFF#64 <<< (8 * i))) ||| (b.setWidth 64 <<< (8 * i))

/-- The first `n` bytes of a record, in port order: byte 0 first (spec/00_scope.md R14, spec/20_memory.md R54). -/
def lanes (n : Nat) (x : Word) : List Byte := (List.range n).map (byteLane x)

/-- `tagged = (value << ts(k)) | tp(k)`, in 64 bits (spec/41_encoder.md R137). -/
def tagged (k : WidthClass) (v : Word) : Word := (v <<< k.ts) ||| k.tp.setWidth 64

/-- `rec >> ts(k)`, a logical shift (spec/42_decoder.md R168). -/
def payload (k : WidthClass) (r : Word) : Word := r >>> k.ts

/-- `cap(k)` as the 4-bit register `enc.cap` holds it (spec/10_state.md R22). -/
def WidthClass.capBits (k : WidthClass) : BitVec 4 := (lut k).byteCapacity

end Sys2Proof.Machine
end

