-- ==== Sys2Proof/Machine/Ops.lean ====
section
/-! DEFINITION. The named operations over the streams and the registers: the two stream primitives, the three ends of
an operation, and the reset edge. -/

namespace Sys2Proof.Machine

/-- `SinkEmit(b)`: the sink has one byte more, and that is all (spec/20_memory.md R52). -/
def State.sinkEmit (b : Byte) (s : State) : State := { s with sink := s.sink ++ [b] }

/-- The source's next answer and the answers left: a byte is removed from the stream, an `Exhausted` removes no byte,
and past the end of the list the answer is `Exhausted` (spec/20_memory.md R53, spec/30_encoding.md R97).
Assumption log entry 5. -/
def nextAnswer : List Answer → Answer × List Answer
  | [] => (.exhausted, [])
  | a :: rest => (a, rest)

/-- `SrcPull()`: the answer, and the state in which the source has given it (spec/20_memory.md R53). -/
def State.srcPull (s : State) : Answer × State :=
  ((nextAnswer s.source).1, { s with source := (nextAnswer s.source).2 })

/-- `raise RangeError`: nothing is emitted, the encoder goes to its response state with count 0
(spec/41_encoder.md R136, R140; spec/60_exceptions.md R202, R209). -/
def State.raiseRange (s : State) : State :=
  { s with enc := { st := .resp, buf := 0, cap := 0, idx := 0, status := .range } }

/-- The decoder ends its operation with status `c` and goes to its response state; no other register changes
(spec/42_decoder.md R171, R172; spec/60_exceptions.md R209). -/
def State.decFinish (c : Status) (s : State) : State :=
  { s with dec := { s.dec with status := c, st := .resp } }

/-- A rising edge with `rst = 1`: both units idle, every other register unspecified, and no transfer on any port
(spec/70_reset_and_hazards.md R230 to R232). The unspecified values are free values: assumption log entry 7. -/
def State.resetEdge (s : State) : State :=
  { s with
    enc := { st := .idle
             buf := Config.encBufAfterReset s.fresh
             cap := Config.encCapAfterReset s.fresh
             idx := Config.encIdxAfterReset s.fresh
             status := Status.ofCode (Config.encStatusAfterReset s.fresh) }
    dec := { st := .idle
             buf := Config.decBufAfterReset s.fresh
             k := WidthClass.ofIndex (Config.decKAfterReset s.fresh)
             idx := Config.decIdxAfterReset s.fresh
             status := Status.ofCode (Config.decStatusAfterReset s.fresh) }
    fresh := s.fresh + 1 }

end Sys2Proof.Machine
end

