-- ==== Sys2Proof/Machine/Ports.lean ====
section
/-! DEFINITION. The output pins as functions of the registers (spec/10_state.md R30 to R37). -/

namespace Sys2Proof.Machine

/-- The payload the encoder response port delivers: `enc.status` and `zext_8(enc.idx)` (spec/41_encoder.md R143). -/
def EncUnit.response (u : EncUnit) : EncRsp := { status := u.status, count := u.idx.setWidth 8 }

/-- The payload the decoder response port delivers: the value when the status is `OK`, else 0
(spec/42_decoder.md R174, spec/10_state.md R36). -/
def DecUnit.response (u : DecUnit) : DecRsp :=
  { status := u.status, value := if u.status = .ok then payload u.k u.buf else 0 }

/-- The byte the sink port carries (spec/10_state.md R37, spec/41_encoder.md R141). -/
def EncUnit.sinkByte (u : EncUnit) : Byte := byteLane u.buf u.idx.toNat

/-- The output pins. A payload that is not specified, because its channel's valid is 0, is `none`: it must not be read
then. Assumption log entry 9. -/
structure Outputs where
  encReqReady  : Bool                -- enc_req_ready
  snkValid     : Bool                -- snk_valid
  snkData      : Option Byte         -- snk_data
  encRspValid  : Bool                -- enc_rsp_valid
  encRspStatus : Option (BitVec 2)   -- enc_rsp_status
  encRspCount  : Option (BitVec 8)   -- enc_rsp_count
  decReqReady  : Bool                -- dec_req_ready
  srcReady     : Bool                -- src_ready
  decRspValid  : Bool                -- dec_rsp_valid
  decRspStatus : Option (BitVec 2)   -- dec_rsp_status
  decRspValue  : Option Word         -- dec_rsp_value
  deriving DecidableEq, Repr

/-- `enc_req_ready`. -/
def EncUnit.reqReady (u : EncUnit) : Bool := decide (u.st = .idle)
/-- `snk_valid`. -/
def EncUnit.snkValid (u : EncUnit) : Bool := decide (u.st = .emit)
/-- `enc_rsp_valid`. -/
def EncUnit.rspValid (u : EncUnit) : Bool := decide (u.st = .resp)
/-- `dec_req_ready`. -/
def DecUnit.reqReady (u : DecUnit) : Bool := decide (u.st = .idle)
/-- `src_ready`. -/
def DecUnit.srcReady (u : DecUnit) : Bool := decide (u.st = .first) || decide (u.st = .rest)
/-- `dec_rsp_valid`. -/
def DecUnit.rspValid (u : DecUnit) : Bool := decide (u.st = .resp)

/-- The table of spec/10_state.md R37. -/
def outputs (s : State) : Outputs :=
  { encReqReady  := s.enc.reqReady
    snkValid     := s.enc.snkValid
    snkData      := if s.enc.snkValid then some s.enc.sinkByte else none
    encRspValid  := s.enc.rspValid
    encRspStatus := if s.enc.rspValid then some s.enc.response.status.code else none
    encRspCount  := if s.enc.rspValid then some s.enc.response.count else none
    decReqReady  := s.dec.reqReady
    srcReady     := s.dec.srcReady
    decRspValid  := s.dec.rspValid
    decRspStatus := if s.dec.rspValid then some s.dec.response.status.code else none
    decRspValue  := if s.dec.rspValid then some s.dec.response.value else none }

end Sys2Proof.Machine
end

