-- ==== Sys2Proof/Machine/Wire.lean ====
section
/-! DEFINITION. The two operations as pure functions, the reference the transitions are held to
(spec/41_encoder.md R139, spec/42_decoder.md R161). -/

namespace Sys2Proof.Machine

/-- The result of `encode`: the bytes of the record, or RangeError (spec/41_encoder.md R139). -/
inductive EncodeResult where
  | ok (bytes : List Byte)
  | rangeError
  deriving DecidableEq, Repr

/-- The result of `decode`: a value, TruncatedInputError or InvalidTagError (spec/42_decoder.md R160). -/
inductive DecodeResult where
  | ok (value : Word)
  | truncatedInputError
  | invalidTagError
  deriving DecidableEq, Repr

/-- `encode(v)` (spec/41_encoder.md R139). -/
def encodeRecord (v : Word) : EncodeResult :=
  match select v with
  | none => .rangeError
  | some k => .ok (lanes k.cap (tagged k v))

/-- Step 3 and 4 of `decode`: `n` further bytes are wanted, the next goes to byte position `i` of `r`
(spec/42_decoder.md R161). -/
def decodeTail (k : WidthClass) : Nat → Nat → Word → List Answer → DecodeResult × List Answer
  | 0, _, r, src => (.ok (payload k r), src)
  | n + 1, i, r, src =>
    match nextAnswer src with
    | (.exhausted, src') => (.truncatedInputError, src')
    | (.byte b, src') => decodeTail k n (i + 1) (r ||| (b.setWidth 64 <<< (8 * i))) src'

/-- `decode(source)`: the result and what is left of the source's answers (spec/42_decoder.md R161). -/
def decodeRecord (src : List Answer) : DecodeResult × List Answer :=
  match nextAnswer src with
  | (.exhausted, src') => (.truncatedInputError, src')
  | (.byte first, src') =>
    match matchTag first with
    | none => (.invalidTagError, src')
    | some k => decodeTail k (k.cap - 1) 1 (first.setWidth 64) src'

/-- The response that carries a result of `encode` (spec/10_state.md R33). -/
def EncodeResult.response : EncodeResult → EncRsp
  | .ok bytes => { status := .ok, count := BitVec.ofNat 8 bytes.length }
  | .rangeError => { status := .range, count := 0 }

/-- The bytes a result of `encode` puts on the sink. -/
def EncodeResult.bytes : EncodeResult → List Byte
  | .ok bytes => bytes
  | .rangeError => []

/-- The response that carries a result of `decode` (spec/10_state.md R36). -/
def DecodeResult.response : DecodeResult → DecRsp
  | .ok v => { status := .ok, value := v }
  | .truncatedInputError => { status := .trunc, value := 0 }
  | .invalidTagError => { status := .invTag, value := 0 }

end Sys2Proof.Machine
end

