-- ==== Sys2Proof/Machine/Decoder.lean ====
section
/-! DEFINITION. `varint_decoder`: the transitions of the decoder unit (spec/42_decoder.md R170 to R174), a `DEC` as a
whole (R160, R173), and the meaning of each `DEC` row (R164 to R167, R169). -/

namespace Sys2Proof.Machine

/-- Transition D-ACCEPT (spec/42_decoder.md R170). -/
def decAccept (s : State) : State := { s with dec := { s.dec with buf := 0, idx := 0, st := .first } }

/-- D-FIRST on a byte, once the class is matched; `none` is the dead InvalidTagError arm, which leaves `dec.k` as it was
(spec/42_decoder.md R171, R175). Assumption log entry 21. -/
def decFirstAs (k : Option WidthClass) (b : Byte) (s : State) : State :=
  match k with
  | none =>
    { s with dec := { s.dec with buf := setByteLane s.dec.buf 0 b, idx := 1, status := .invTag, st := .resp } }
  | some k =>
    if k.cap = 1 then
      { s with dec := { s.dec with buf := setByteLane s.dec.buf 0 b, idx := 1, k := k, status := .ok, st := .resp } }
    else
      { s with dec := { s.dec with buf := setByteLane s.dec.buf 0 b, idx := 1, k := k, st := .rest } }

/-- Transition D-FIRST on the answer to the first pull (spec/42_decoder.md R171). -/
def decFirst (a : Answer) (s : State) : State :=
  match a with
  | .exhausted => s.decFinish .trunc
  | .byte b => decFirstAs (matchTag b) b s

/-- D-REST on a byte: it goes to the next byte position, and the record may be complete (spec/42_decoder.md R172). -/
def decRestByte (b : Byte) (s : State) : State :=
  if s.dec.idx + 1 = s.dec.k.capBits then
    { s with dec := { s.dec with
        buf := setByteLane s.dec.buf s.dec.idx.toNat b, idx := s.dec.idx + 1, status := .ok, st := .resp } }
  else
    { s with dec := { s.dec with buf := setByteLane s.dec.buf s.dec.idx.toNat b, idx := s.dec.idx + 1 } }

/-- Transition D-REST on the answer to a further pull (spec/42_decoder.md R172). -/
def decRest (a : Answer) (s : State) : State :=
  match a with
  | .exhausted => s.decFinish .trunc
  | .byte b => decRestByte b s

/-- Transition D-RESPOND (spec/42_decoder.md R174). -/
def decRespond (s : State) : State :=
  { s with dec := { s.dec with st := .idle }, decRsps := s.decRsps ++ [s.dec.response] }

/-- The decoder unit's part of a rising edge with `rst = 0`: the one transfer its state allows, if the environment does
its half of it; else nothing (spec/20_memory.md R51, spec/42_decoder.md R173). -/
def decEdge (p : Pins) (s : State) : State :=
  match s.dec.st with
  | .idle => if p.decReqValid then decAccept s else s
  | .first => if p.srcValid then decFirst s.srcPull.1 s.srcPull.2 else s
  | .rest => if p.srcValid then decRest s.srcPull.1 s.srcPull.2 else s
  | .resp => if p.decRspReady then decRespond s else s

/-- The source answers as long as the decoder wants a further byte, `n` times at most. -/
def decRestAll : Nat → State → State
  | 0, s => s
  | n + 1, s =>
    match s.dec.st with
    | .rest => decRestAll n (decRest s.srcPull.1 s.srcPull.2)
    | .idle => s
    | .first => s
    | .resp => s

/-- All transfers of one `DEC` whose first pull was answered `first`, read as class `k`, in the order of
spec/20_memory.md R64: the request, the pulls, the response. -/
def decRun (k : Option WidthClass) (first : Byte) (s : State) : State :=
  decRespond (decRestAll (Config.bufBytes - 1) (decFirstAs k first (decAccept s)))

/-- All transfers of one `DEC` whose first pull was answered `Exhausted` (spec/42_decoder.md R169 (a)): no byte
consumed, no class known. -/
def decRunEmpty (s : State) : State := decRespond (decFirst .exhausted (decAccept s))

/-- One whole `DEC` of class `k`. A unit that is not idle does not accept the request, and nothing is transferred
(spec/60_exceptions.md R207, spec/70_reset_and_hazards.md R247). Assumption log entries 4, 12, 20. -/
def decOperation (k : WidthClass) (first : Byte) (s : State) : Host.Outcome State Fault Refusal :=
  if s.dec.reqReady then .next (decRun (some k) first s) else .next s

/-- DEC.1: decode a 1-byte record (spec/42_decoder.md R164). -/
def execDec1 (first : Byte) (s : State) : Host.Outcome State Fault Refusal := decOperation .one first s

/-- DEC.2: decode a 2-byte record (spec/42_decoder.md R165). -/
def execDec2 (first : Byte) (s : State) : Host.Outcome State Fault Refusal := decOperation .two first s

/-- DEC.4: decode a 4-byte record (spec/42_decoder.md R166). -/
def execDec4 (first : Byte) (s : State) : Host.Outcome State Fault Refusal := decOperation .four first s

/-- DEC.8: decode an 8-byte record (spec/42_decoder.md R167). -/
def execDec8 (first : Byte) (s : State) : Host.Outcome State Fault Refusal := decOperation .eight first s

end Sys2Proof.Machine
end

