-- ==== Sys2Proof/Machine/Encoder.lean ====
section
/-! DEFINITION. `varint_encoder`: the transitions of the encoder unit (spec/41_encoder.md R140 to R143), an `ENC` as a
whole (R130, R142), and the meaning of each `ENC` row (R132 to R136). -/

namespace Sys2Proof.Machine

/-- The registers E-ACCEPT writes once the class is selected; `none` is RangeError (spec/41_encoder.md R140). -/
def encAcceptAs (k : Option WidthClass) (v : Word) (s : State) : State :=
  match k with
  | none => s.raiseRange
  | some k => { s with enc := { st := .emit, buf := tagged k v, cap := k.capBits, idx := 0, status := .ok } }

/-- Transition E-ACCEPT (spec/41_encoder.md R140). -/
def encAccept (v : Word) (s : State) : State := encAcceptAs (select v) v s

/-- Transition E-EMIT (spec/41_encoder.md R141). -/
def encEmit (s : State) : State :=
  { s.sinkEmit s.enc.sinkByte with
    enc := { s.enc with
      idx := s.enc.idx + 1
      st := if s.enc.idx + 1 = s.enc.cap then .resp else s.enc.st } }

/-- Transition E-RESPOND (spec/41_encoder.md R143). -/
def encRespond (s : State) : State :=
  { s with enc := { s.enc with st := .idle }, encRsps := s.encRsps ++ [s.enc.response] }

/-- The encoder unit's part of a rising edge with `rst = 0`: the one transfer its state allows, if the environment does
its half of it; else nothing (spec/20_memory.md R51, spec/41_encoder.md R142). -/
def encEdge (p : Pins) (s : State) : State :=
  match s.enc.st with
  | .idle =>
    match p.encReq with
    | some v => encAccept v s
    | none => s
  | .emit => if p.snkReady then encEmit s else s
  | .resp => if p.encRspReady then encRespond s else s

/-- The sink takes bytes as long as the encoder offers one, `n` at most. -/
def encEmitAll : Nat → State → State
  | 0, s => s
  | n + 1, s =>
    match s.enc.st with
    | .emit => encEmitAll n (encEmit s)
    | .idle => s
    | .resp => s

/-- All transfers of one `ENC` of class `k`, in the order of spec/20_memory.md R64: the request, the bytes of the
record, the response. -/
def encRun (k : Option WidthClass) (v : Word) (s : State) : State :=
  encRespond (encEmitAll Config.bufBytes (encAcceptAs k v s))

/-- One whole `ENC` of class `k`. A unit that is not idle does not accept the request, and nothing is transferred
(spec/60_exceptions.md R207, spec/70_reset_and_hazards.md R247). Assumption log entries 4, 12, 20. -/
def encOperation (k : Option WidthClass) (v : Word) (s : State) : Host.Outcome State Fault Refusal :=
  if s.enc.reqReady then .next (encRun k v s) else .next s

/-- ENC.1: encode into the 1-byte class (spec/41_encoder.md R132). -/
def execEnc1 (v : Word) (s : State) : Host.Outcome State Fault Refusal := encOperation (some .one) v s

/-- ENC.2: encode into the 2-byte class (spec/41_encoder.md R133). -/
def execEnc2 (v : Word) (s : State) : Host.Outcome State Fault Refusal := encOperation (some .two) v s

/-- ENC.4: encode into the 4-byte class (spec/41_encoder.md R134). -/
def execEnc4 (v : Word) (s : State) : Host.Outcome State Fault Refusal := encOperation (some .four) v s

/-- ENC.8: encode into the 8-byte class (spec/41_encoder.md R135). -/
def execEnc8 (v : Word) (s : State) : Host.Outcome State Fault Refusal := encOperation (some .eight) v s

/-- ENC.ERR: the value is out of range, RangeError (spec/41_encoder.md R136). -/
def execEncErr (v : Word) (s : State) : Host.Outcome State Fault Refusal := encOperation none v s

end Sys2Proof.Machine
end

