-- ==== Sys2Proof/Machine/Fetch.lean ====
section
/-! DEFINITION. What the environment's next event asks for: a rising edge, on which the units make their transfers, or
one whole operation, whose request value or first byte is fetched and decoded here. -/

namespace Sys2Proof.Machine

/-- A rising edge of `clk`. With `rst = 1` it is a reset and no transfer (spec/70_reset_and_hazards.md R231); else each
unit makes its own transfer, independently of the other (spec/10_state.md R20). Assumption log entry 3. -/
def clockEdge (p : Pins) (s : State) : State :=
  if p.rst then s.resetEdge else decEdge p (encEdge p s)

/-- An event of the environment, read: an operation to run in a state, or a state already reached. -/
inductive Fetched where
  | run (i : Instr) (s : State)
  | done (s : State)
  deriving DecidableEq, Repr

/-- A whole `DEC`: an idle decoder pulls the first byte, which selects the variant. On `Exhausted` no variant is known
and the operation is over (spec/42_decoder.md R169 (a)); the dead InvalidTagError arm ends it after one byte (R175).
A decoder that is not idle does not accept the request and pulls nothing for it. -/
def fetchDec (s : State) : Fetched :=
  if s.dec.reqReady then
    match s.srcPull with
    | (.exhausted, s') => .done (decRunEmpty s')
    | (.byte b, s') =>
      match decodeFirst b with
      | .ok i => .run i s'
      | .error .invalidTag => .done (decRun none b s')
  else .done s

/-- The next event of the schedule, taken from it. With no event left the environment does nothing, and nothing
changes. Assumption log entries 2, 18. -/
def fetch (s : State) : Fetched :=
  match s.sched with
  | [] => .done s
  | .edge p :: rest => .done (clockEdge p { s with sched := rest })
  | .encOp v :: rest => .run (decodeRequest v) { s with sched := rest }
  | .decOp :: rest => fetchDec { s with sched := rest }

/-- The bytes of a number, least significant first. -/
def bytesOf : Nat → Nat → List Byte
  | 0, _ => []
  | n + 1, w => BitVec.ofNat 8 w :: bytesOf n (w / 256)

/-- `s` with a code placed where the next event fetches it: the unit idle, the request or the record's bytes at hand
(eight of them, the longest record), the operation first in the schedule. Assumption log entries 13, 18. -/
def place (c : Code) (w : Nat) (s : State) : State :=
  match c with
  | .request v => { s with enc := { s.enc with st := .idle }, sched := .encOp v :: s.sched }
  | .record _ =>
    { s with
      dec := { s.dec with st := .idle }
      source := (bytesOf Config.bufBytes w).map .byte ++ s.source
      sched := .decOp :: s.sched }

end Sys2Proof.Machine
end

