-- ==== Sys2Proof/Machine/Dispatch.lean ====
section
/-! DEFINITION. The meaning of every operation, one arm per constructor of `Instr`. -/

namespace Sys2Proof.Machine

/-- What an operation does to the machine. -/
def exec (i : Instr) (s : State) : Host.Outcome State Fault Refusal :=
  match i with
  | .enc1 v => Sys2Proof.Machine.execEnc1 v s
  | .enc2 v => Sys2Proof.Machine.execEnc2 v s
  | .enc4 v => Sys2Proof.Machine.execEnc4 v s
  | .enc8 v => Sys2Proof.Machine.execEnc8 v s
  | .encErr v => Sys2Proof.Machine.execEncErr v s
  | .dec1 first => Sys2Proof.Machine.execDec1 first s
  | .dec2 first => Sys2Proof.Machine.execDec2 first s
  | .dec4 first => Sys2Proof.Machine.execDec4 first s
  | .dec8 first => Sys2Proof.Machine.execDec8 first s

end Sys2Proof.Machine
end

