-- ==== Sys2Proof/Safety.lean ====
section
/-! DEFINITION. The invariants of the registers (spec/10_state.md R24), what a legal response is, and what a finished run
is, in the terms the statements use. -/

namespace Sys2Proof.Machine

/-- The low `ts(k)` bits of a buffer hold the tag of class `k`. -/
abbrev HoldsTag (k : WidthClass) (buf : Word) : Prop := buf &&& k.mask.setWidth 64 = k.tp.setWidth 64

/-- The rows of spec/10_state.md R24 about the encoder unit. -/
abbrev EncInv (u : EncUnit) : Prop :=
  (u.st = .emit →
    u.idx.toNat < u.cap.toNat ∧ u.status = .ok ∧
      ∃ k ∈ WidthClass.all, u.cap = k.capBits ∧ u.buf.toNat < 2 ^ (8 * k.cap) ∧ HoldsTag k u.buf) ∧
  (u.st = .resp →
    u.idx = u.cap ∧ u.cap ∈ [0#4, 1#4, 2#4, 4#4, 8#4] ∧ (u.cap = 0#4 ↔ u.status = .range) ∧
      (u.status = .ok ∨ u.status = .range))

/-- The rows of spec/10_state.md R24 about the decoder unit; `INVTAG` is not among the statuses, because no input reaches
that arm (spec/42_decoder.md R175). -/
abbrev DecInv (u : DecUnit) : Prop :=
  (u.st = .first → u.buf = 0#64 ∧ u.idx = 0#4) ∧
  (u.st = .rest →
    1 ≤ u.idx.toNat ∧ u.idx.toNat < u.k.cap ∧ u.buf.toNat < 2 ^ (8 * u.idx.toNat) ∧ HoldsTag u.k u.buf) ∧
  (u.st = .resp →
    u.idx.toNat ≤ 8 ∧ u.buf.toNat < 2 ^ (8 * u.idx.toNat) ∧ (1 ≤ u.idx.toNat → HoldsTag u.k u.buf) ∧
      ((u.status = .ok ∧ u.idx.toNat = u.k.cap) ∨
        (u.status = .trunc ∧ (u.idx.toNat < u.k.cap ∨ u.idx = 0#4))))

/-- A response the encoder response port can carry (spec/10_state.md R33). -/
abbrev EncRsp.Legal (r : EncRsp) : Prop :=
  (r.status = .ok ∧ r.count ∈ [1#8, 2#8, 4#8, 8#8]) ∨ (r.status = .range ∧ r.count = 0#8)

/-- A response the decoder response port can carry, with the dead code `INVTAG` left out
(spec/10_state.md R36, spec/42_decoder.md R175, R177). -/
abbrev DecRsp.Legal (r : DecRsp) : Prop :=
  (r.status = .ok ∧ r.value.toNat < 2 ^ 61) ∨ (r.status = .trunc ∧ r.value = 0#64)

/-- Both units' registers meet spec/10_state.md R24. -/
abbrev RegInv (s : State) : Prop := EncInv s.enc ∧ DecInv s.dec

/-- Every response taken so far is one the port can carry. -/
abbrev ResponsesLegal (s : State) : Prop :=
  (∀ r ∈ s.encRsps, r.Legal) ∧ (∀ r ∈ s.decRsps, r.Legal)

/-- While a record is being emitted, and until its response is taken, the sink ends with the bytes of it handed over so
far (spec/70_reset_and_hazards.md R241, spec/20_memory.md R64). -/
def SinkHoldsRecord (s : State) : Prop :=
  (s.enc.st = .emit ∨ (s.enc.st = .resp ∧ s.enc.status = .ok)) →
    ∃ before, s.sink = before ++ lanes s.enc.idx.toNat s.enc.buf

/-- The block is quiescent: both units are idle (spec/70_reset_and_hazards.md R251). -/
abbrev Quiescent (s : State) : Prop := s.enc.st = .idle ∧ s.dec.st = .idle

/-- An edge on which the environment completes every transfer the encoder offers, and offers it no new request. -/
def serveEncoder : Pins :=
  { rst := false, encReq := none, snkReady := true, encRspReady := true, decReqValid := false, srcValid := false,
    decRspReady := false }

/-- An edge on which the environment completes every transfer the decoder offers, and offers it no new request. -/
def serveDecoder : Pins :=
  { rst := false, encReq := none, snkReady := false, encRspReady := false, decReqValid := false, srcValid := true,
    decRspReady := true }

/-- An edge on which the environment offers the encoder a request and does nothing else. -/
def requestEncode (v : Word) : Pins :=
  { rst := false, encReq := some v, snkReady := false, encRspReady := false, decReqValid := false, srcValid := false,
    decRspReady := false }

/-- An edge on which the environment offers the decoder a request and does nothing else. -/
def requestDecode : Pins :=
  { rst := false, encReq := none, snkReady := false, encRspReady := false, decReqValid := true, srcValid := false,
    decRspReady := false }

/-- `n` edges with the same pins. -/
def edges (n : Nat) (p : Pins) : List Event := List.replicate n (.edge p)

end Sys2Proof.Machine
end

