-- ==== Sys2Proof/Certificates/Slice0/Obligations.lean ====
section
/-! DEFINITION. The statements for the provers, from the spec's numbered rules: the table and its lookups, the codes of
the operations, each operation as a whole, the transitions, the ports, reset, the invariants, the two pure functions, and
the rules about whole runs. An operation's operands are in `Instr`; `exec` of a `DEC` starts in the state in which the
source has already given the first byte, which is the operand (`step` pulls it: see `StepRunsTheDecodedOperation`). -/

open Sys2Proof Sys2Proof.Machine

/-! ### The width class table -/

/-- R112, R113: `pb = 8*cap - ts` in every row, the four maxima and the largest of them; the table order is that of
increasing capacity, of non-decreasing tag size and of increasing payload; and `cap(k) = 2^k`. -/
def Obligations.TableColumnsAreTiedAndOrdered : Prop :=
  (∀ k : WidthClass, k.pb = 8 * k.cap - k.ts ∧ k.cap = 2 ^ k.index.toNat ∧ 2 ^ k.pb - 1 ≤ 2 ^ 61 - 1) ∧
    WidthClass.all.map (fun k => k.index.toNat) = [0, 1, 2, 3] ∧
    WidthClass.all.map WidthClass.cap = [1, 2, 4, 8] ∧ WidthClass.all.map WidthClass.ts = [1, 2, 3, 3] ∧
    WidthClass.all.map WidthClass.pb = [7, 14, 29, 61] ∧
    WidthClass.all.map (fun k => 2 ^ k.pb - 1) = [127, 16383, 536870911, 2305843009213693951] ∧
    ∀ j k : WidthClass, j.index.toNat < k.index.toNat → j.cap < k.cap ∧ j.ts ≤ k.ts ∧ j.pb < k.pb

/-- R93: which class a value selects. -/
def Obligations.ValueRangeSelectsTheClass : Prop :=
  ∀ v : Word,
    (v.toNat ≤ 127 → select v = some .one) ∧
    (128 ≤ v.toNat → v.toNat ≤ 16383 → select v = some .two) ∧
    (16384 ≤ v.toNat → v.toNat ≤ 536870911 → select v = some .four) ∧
    (536870912 ≤ v.toNat → v.toNat ≤ 2305843009213693951 → select v = some .eight) ∧
    (2305843009213693952 ≤ v.toNat → select v = none)

/-- R149: the priority test on the leading bits is the same function as the lookup by value. -/
def Obligations.SelectIsThePriorityTestOnLeadingBits : Prop :=
  ∀ v : Word, select v = selectLogic v

/-- R114, R175, R89: for every byte exactly one class's tag matches, the lookup answers it, and the InvalidTagError arm is
dead; how many of the 256 bytes select each format. -/
def Obligations.EveryFirstByteMatchesExactlyOneClass : Prop :=
  (∀ b : Byte, ∃ k : WidthClass, matchTag b = some k ∧ ∀ j : WidthClass, b &&& j.mask = j.tp ↔ j = k) ∧
  WidthClass.all.map (fun k => ((List.range 256).map (BitVec.ofNat 8)).countP fun b => matchTag b == some k) =
    [128, 64, 32, 32]

/-- R88, R163: the low three bits of byte 0 select the format; the result does not depend on the order in which the four
conditions are tested; the resolver is the same function, with the class's capacity and tag size. -/
def Obligations.LowThreeBitsSelectTheFormatInAnyOrder : Prop :=
  ∀ b : Byte,
    matchTag b =
      [some .eight, some .one, some .two, some .one, some .four, some .one, some .two, some .one][b.toNat % 8]! ∧
    (∀ order : List WidthClass, order.Perm WidthClass.all →
      order.find? (fun k => b &&& k.mask == k.tp) = matchTag b) ∧
    resolve b = (matchTag b).map fun k => { k := k, cap := k.cap, ts := k.ts }

/-! ### The codes of the operations -/

/-- Decoding the code of a well-formed operation gives it back, every operand bit included. -/
def Obligations.DecodeOfEncodeIsTheOperation : Prop :=
  ∀ i : Instr, i.wf = true → decode (encode i) = .ok i

/-- R90: every code names an operation, which is well-formed and has that code: no encoding is reserved or illegal. -/
def Obligations.EveryCodeNamesOneWellFormedOperation : Prop :=
  ∀ c : Code, ∃ i : Instr, decode c = .ok i ∧ i.wf = true ∧ encode i = c

/-- R96: the rows of the opcode table, tested in the order listed, first fit. -/
def Obligations.OpcodeTableRowsAreFirstFit : Prop :=
  (∀ v : Word,
    decodeRequest v =
      if v &&& 0xFFFFFFFFFFFFFF80#64 = 0#64 then .enc1 v
      else if v &&& 0xFFFFFFFFFFFFC000#64 = 0#64 then .enc2 v
      else if v &&& 0xFFFFFFFFE0000000#64 = 0#64 then .enc4 v
      else if v &&& 0xE000000000000000#64 = 0#64 then .enc8 v
      else .encErr v) ∧
  (∀ b : Byte,
    (b &&& 0x01#8 = 0x01#8 → decodeFirst b = .ok (.dec1 b)) ∧
    (b &&& 0x03#8 = 0x02#8 → decodeFirst b = .ok (.dec2 b)) ∧
    (b &&& 0x07#8 = 0x04#8 → decodeFirst b = .ok (.dec4 b)) ∧
    (b &&& 0x07#8 = 0x00#8 → decodeFirst b = .ok (.dec8 b)))

/-- Words written out from the spec's encodings (95_test_vectors.md 2.3 to 2.11) decode to their operations. -/
def Obligations.WordsOfTheSpecDecode : Prop :=
  decode (.request 100#64) = .ok (.enc1 100#64) ∧
  decode (.request 300#64) = .ok (.enc2 300#64) ∧
  decode (.request 1000000#64) = .ok (.enc4 1000000#64) ∧
  decode (.request 0x0123456789ABCDEF#64) = .ok (.enc8 0x0123456789ABCDEF#64) ∧
  decode (.request 0x2000000000000005#64) = .ok (.encErr 0x2000000000000005#64) ∧
  decode (.record 0xC9#8) = .ok (.dec1 0xC9#8) ∧
  decode (.record 0xB2#8) = .ok (.dec2 0xB2#8) ∧
  decode (.record 0xFC#8) = .ok (.dec4 0xFC#8) ∧
  decode (.record 0x78#8) = .ok (.dec8 0x78#8)

/-! ### Each operation as a whole: what it does, and that it changes nothing else -/

/-- R132: `ENC.1` by an idle encoder. -/
def Obligations.EncodeOneByteRecord : Prop :=
  ∀ (v : Word) (s : State), v.toNat ≤ 127 → s.enc.st = .idle →
    exec (.enc1 v) s = .next { s with
      enc := { st := .idle, buf := (v <<< 1) ||| 1#64, cap := 1, idx := 1, status := .ok }
      sink := s.sink ++ [((v <<< 1) ||| 1#64).extractLsb' 0 8]
      encRsps := s.encRsps ++ [{ status := .ok, count := 1 }] }

/-- R133: `ENC.2` by an idle encoder. -/
def Obligations.EncodeTwoByteRecord : Prop :=
  ∀ (v : Word) (s : State), 128 ≤ v.toNat → v.toNat ≤ 16383 → s.enc.st = .idle →
    exec (.enc2 v) s = .next { s with
      enc := { st := .idle, buf := (v <<< 2) ||| 2#64, cap := 2, idx := 2, status := .ok }
      sink := s.sink ++ [((v <<< 2) ||| 2#64).extractLsb' 0 8, ((v <<< 2) ||| 2#64).extractLsb' 8 8]
      encRsps := s.encRsps ++ [{ status := .ok, count := 2 }] }

/-- R134: `ENC.4` by an idle encoder. -/
def Obligations.EncodeFourByteRecord : Prop :=
  ∀ (v : Word) (s : State), 16384 ≤ v.toNat → v.toNat ≤ 536870911 → s.enc.st = .idle →
    exec (.enc4 v) s = .next { s with
      enc := { st := .idle, buf := (v <<< 3) ||| 4#64, cap := 4, idx := 4, status := .ok }
      sink := s.sink ++
        [((v <<< 3) ||| 4#64).extractLsb' 0 8, ((v <<< 3) ||| 4#64).extractLsb' 8 8,
         ((v <<< 3) ||| 4#64).extractLsb' 16 8, ((v <<< 3) ||| 4#64).extractLsb' 24 8]
      encRsps := s.encRsps ++ [{ status := .ok, count := 4 }] }

/-- R135: `ENC.8` by an idle encoder. -/
def Obligations.EncodeEightByteRecord : Prop :=
  ∀ (v : Word) (s : State), 536870912 ≤ v.toNat → v.toNat ≤ 2305843009213693951 → s.enc.st = .idle →
    exec (.enc8 v) s = .next { s with
      enc := { st := .idle, buf := v <<< 3, cap := 8, idx := 8, status := .ok }
      sink := s.sink ++
        [(v <<< 3).extractLsb' 0 8, (v <<< 3).extractLsb' 8 8, (v <<< 3).extractLsb' 16 8, (v <<< 3).extractLsb' 24 8,
         (v <<< 3).extractLsb' 32 8, (v <<< 3).extractLsb' 40 8, (v <<< 3).extractLsb' 48 8, (v <<< 3).extractLsb' 56 8]
      encRsps := s.encRsps ++ [{ status := .ok, count := 8 }] }

/-- R136: `ENC.ERR` by an idle encoder: nothing to the sink, RANGE with count 0. -/
def Obligations.EncodeOutOfRangeIsRangeError : Prop :=
  ∀ (v : Word) (s : State), 2305843009213693952 ≤ v.toNat → s.enc.st = .idle →
    exec (.encErr v) s = .next { s with
      enc := { st := .idle, buf := 0, cap := 0, idx := 0, status := .range }
      encRsps := s.encRsps ++ [{ status := .range, count := 0 }] }

/-- R164: `DEC.1` by an idle decoder. -/
def Obligations.DecodeOneByteRecord : Prop :=
  ∀ (first : Byte) (s : State), first &&& 0x01#8 = 0x01#8 → s.dec.st = .idle →
    exec (.dec1 first) s = .next { s with
      dec := { st := .idle, buf := first.setWidth 64, k := .one, idx := 1, status := .ok }
      decRsps := s.decRsps ++ [{ status := .ok, value := first.setWidth 64 >>> 1 }] }

/-- R165: `DEC.2` by an idle decoder whose source has the second byte. -/
def Obligations.DecodeTwoByteRecord : Prop :=
  ∀ (first b1 : Byte) (left : List Answer) (s : State), first &&& 0x03#8 = 0x02#8 → s.dec.st = .idle →
    s.source = .byte b1 :: left →
    exec (.dec2 first) s = .next { s with
      source := left
      dec := { st := .idle, buf := (b1 ++ first).setWidth 64, k := .two, idx := 2, status := .ok }
      decRsps := s.decRsps ++ [{ status := .ok, value := (b1 ++ first).setWidth 64 >>> 2 }] }

/-- R166: `DEC.4` by an idle decoder whose source has three more bytes. -/
def Obligations.DecodeFourByteRecord : Prop :=
  ∀ (first b1 b2 b3 : Byte) (left : List Answer) (s : State), first &&& 0x07#8 = 0x04#8 → s.dec.st = .idle →
    s.source = .byte b1 :: .byte b2 :: .byte b3 :: left →
    exec (.dec4 first) s = .next { s with
      source := left
      dec := { st := .idle, buf := (b3 ++ b2 ++ b1 ++ first).setWidth 64, k := .four, idx := 4, status := .ok }
      decRsps := s.decRsps ++ [{ status := .ok, value := (b3 ++ b2 ++ b1 ++ first).setWidth 64 >>> 3 }] }

/-- R167: `DEC.8` by an idle decoder whose source has seven more bytes. -/
def Obligations.DecodeEightByteRecord : Prop :=
  ∀ (first b1 b2 b3 b4 b5 b6 b7 : Byte) (left : List Answer) (s : State),
    first &&& 0x07#8 = 0x00#8 → s.dec.st = .idle →
    s.source = .byte b1 :: .byte b2 :: .byte b3 :: .byte b4 :: .byte b5 :: .byte b6 :: .byte b7 :: left →
    exec (.dec8 first) s = .next { s with
      source := left
      dec := { st := .idle, buf := (b7 ++ b6 ++ b5 ++ b4 ++ b3 ++ b2 ++ b1 ++ first).setWidth 64, k := .eight, idx := 8,
               status := .ok }
      decRsps := s.decRsps ++
        [{ status := .ok, value := (b7 ++ b6 ++ b5 ++ b4 ++ b3 ++ b2 ++ b1 ++ first).setWidth 64 >>> 3 }] }

/-- R169 (b): a source that runs out before the record is complete ends `DEC.2`, `DEC.4` and `DEC.8` with TRUNC and value
0; the bytes pulled are gone and nothing more is pulled. `left` is what the source holds after its `Exhausted` answer. -/
def Obligations.TruncatedRecordIsTruncatedInputError : Prop :=
  ∀ (i : Instr) (k : WidthClass) (first : Byte) (got : List Byte) (left : List Answer) (s : State),
    ((i = .dec2 first ∧ k = .two) ∨ (i = .dec4 first ∧ k = .four) ∨ (i = .dec8 first ∧ k = .eight)) →
    i.wf = true → s.dec.st = .idle → got.length + 1 < k.cap →
    ((s.source = got.map .byte ∧ left = []) ∨ s.source = got.map .byte ++ .exhausted :: left) →
    ∃ u : DecUnit,
      exec i s = .next { s with
        source := left, dec := u, decRsps := s.decRsps ++ [{ status := .trunc, value := 0 }] } ∧
      u.st = .idle ∧ u.k = k ∧ u.idx.toNat = got.length + 1 ∧ u.status = .trunc

/-- R169 (a): a `DEC` whose first pull is answered `Exhausted` is TRUNC with value 0; no byte is consumed and no class
becomes known. -/
def Obligations.EmptySourceIsTruncatedInputError : Prop :=
  ∀ (left : List Answer) (rest : List Event) (s : State), s.dec.st = .idle → s.sched = .decOp :: rest →
    ((s.source = [] ∧ left = []) ∨ s.source = .exhausted :: left) →
    step s = .next { s with
      sched := rest, source := left
      dec := { s.dec with buf := 0, idx := 0, status := .trunc }
      decRsps := s.decRsps ++ [{ status := .trunc, value := 0 }] }

/-- R207, R247: a unit in mid-operation, or with a response not yet taken, does not accept a request: nothing is
transferred and nothing but the schedule changes. That the offer is then over, and must be made again, is the model's
choice (log entry 12). -/
def Obligations.BusyUnitDoesNotAccept : Prop :=
  (∀ (v : Word) (s : State), s.enc.st ≠ .idle →
    (exec (.enc1 v) s = .next s ∧ exec (.enc2 v) s = .next s ∧ exec (.enc4 v) s = .next s ∧
      exec (.enc8 v) s = .next s ∧ exec (.encErr v) s = .next s) ∧
    ∀ rest, s.sched = .encOp v :: rest → step s = .next { s with sched := rest }) ∧
  (∀ (first : Byte) (s : State), s.dec.st ≠ .idle →
    (exec (.dec1 first) s = .next s ∧ exec (.dec2 first) s = .next s ∧ exec (.dec4 first) s = .next s ∧
      exec (.dec8 first) s = .next s) ∧
    ∀ rest, s.sched = .decOp :: rest → step s = .next { s with sched := rest })

/-- R203: no operation and no event stops the machine: every step of every state answers a next state. -/
def Obligations.NothingStopsTheMachine : Prop :=
  (∀ (i : Instr) (s : State), ∃ t, exec i s = .next t) ∧ (∀ s : State, ∃ t, step s = .next t)

/-! ### A step runs the decoded operation -/

/-- An `ENC` event runs the operation its value selects, in the state without that event. A `DEC` event at an idle decoder
pulls the first byte and runs the operation it selects, in the state without that event and without that byte. The events
are the model's (log entry 4). -/
def Obligations.StepRunsTheDecodedOperation : Prop :=
  (∀ (v : Word) (i : Instr) (rest : List Event) (s : State),
    s.sched = .encOp v :: rest → decode (.request v) = .ok i →
    i.wf = true ∧ step s = exec i { s with sched := rest }) ∧
  (∀ (b : Byte) (i : Instr) (left : List Answer) (rest : List Event) (s : State),
    s.dec.st = .idle → s.sched = .decOp :: rest → s.source = .byte b :: left → decode (.record b) = .ok i →
    i.wf = true ∧ step s = exec i { s with sched := rest, source := left })

/-! ### The transitions: one rising edge -/

/-- R140: transition E-ACCEPT. -/
def Obligations.EncoderAcceptsARequest : Prop :=
  ∀ (p : Pins) (v : Word) (rest : List Event) (s : State),
    s.sched = .edge p :: rest → p.rst = false → s.enc.st = .idle → p.encReq = some v →
    ∃ t, step s = .next t ∧ t.sink = s.sink ∧ t.encRsps = s.encRsps ∧
      (select v = none → t.enc = { st := .resp, buf := 0, cap := 0, idx := 0, status := .range }) ∧
      (∀ k, select v = some k →
        t.enc = { st := .emit, buf := (v <<< k.ts) ||| k.tp.setWidth 64, cap := BitVec.ofNat 4 k.cap, idx := 0,
                  status := .ok })

/-- R141: transition E-EMIT. -/
def Obligations.EncoderEmitsAByte : Prop :=
  ∀ (p : Pins) (rest : List Event) (s : State),
    s.sched = .edge p :: rest → p.rst = false → s.enc.st = .emit → p.snkReady = true →
    ∃ t, step s = .next t ∧ t.sink = s.sink ++ [s.enc.buf.extractLsb' (8 * s.enc.idx.toNat) 8] ∧
      (outputs s).snkData = some (s.enc.buf.extractLsb' (8 * s.enc.idx.toNat) 8) ∧
      t.encRsps = s.encRsps ∧ t.enc.buf = s.enc.buf ∧ t.enc.cap = s.enc.cap ∧ t.enc.status = s.enc.status ∧
      t.enc.idx = s.enc.idx + 1 ∧ (t.enc.st = .resp ↔ s.enc.idx + 1 = s.enc.cap) ∧
      (t.enc.st = .emit ↔ s.enc.idx + 1 ≠ s.enc.cap)

/-- R143: transition E-RESPOND. -/
def Obligations.EncoderResponds : Prop :=
  ∀ (p : Pins) (rest : List Event) (s : State),
    s.sched = .edge p :: rest → p.rst = false → s.enc.st = .resp → p.encRspReady = true →
    ∃ t, step s = .next t ∧ t.enc = { s.enc with st := .idle } ∧ t.sink = s.sink ∧
      t.encRsps = s.encRsps ++ [{ status := s.enc.status, count := s.enc.idx.setWidth 8 }] ∧
      (outputs s).encRspStatus = some s.enc.status.code ∧ (outputs s).encRspCount = some (s.enc.idx.setWidth 8)

/-- R170: transition D-ACCEPT. -/
def Obligations.DecoderAcceptsARequest : Prop :=
  ∀ (p : Pins) (rest : List Event) (s : State),
    s.sched = .edge p :: rest → p.rst = false → s.dec.st = .idle → p.decReqValid = true →
    ∃ t, step s = .next t ∧ t.dec = { s.dec with buf := 0, idx := 0, st := .first } ∧ t.source = s.source ∧
      t.decRsps = s.decRsps

/-- R171: transition D-FIRST, its dead arm apart. The byte goes to byte position 0 and leaves the other seven. -/
def Obligations.DecoderTakesTheFirstByte : Prop :=
  ∀ (p : Pins) (rest : List Event) (s : State),
    s.sched = .edge p :: rest → p.rst = false → s.dec.st = .first → p.srcValid = true →
    ∃ t, step s = .next t ∧ t.decRsps = s.decRsps ∧
      (∀ left, (s.source = .exhausted :: left ∨ (s.source = [] ∧ left = [])) →
        t.source = left ∧ t.dec = { s.dec with status := .trunc, st := .resp }) ∧
      (∀ b left, s.source = .byte b :: left →
        t.source = left ∧ t.dec.idx = 1 ∧ byteLane t.dec.buf 0 = b ∧
        (∀ i, 1 ≤ i → i < 8 → byteLane t.dec.buf i = byteLane s.dec.buf i) ∧
        ∀ k, matchTag b = some k → t.dec.k = k ∧
          (k.cap = 1 → t.dec.status = .ok ∧ t.dec.st = .resp) ∧
          (k.cap ≠ 1 → t.dec.status = s.dec.status ∧ t.dec.st = .rest))

/-- R172: transition D-REST. The byte goes to byte position `dec.idx` and leaves the other seven. The premise on
`dec.idx` is rule R24's row for `D_REST`, which every step keeps (`EveryStepKeepsTheRegisterInvariants`). -/
def Obligations.DecoderTakesAFurtherByte : Prop :=
  ∀ (p : Pins) (rest : List Event) (s : State),
    s.sched = .edge p :: rest → p.rst = false → s.dec.st = .rest → p.srcValid = true →
    s.dec.idx.toNat < s.dec.k.cap →
    ∃ t, step s = .next t ∧ t.decRsps = s.decRsps ∧
      (∀ left, (s.source = .exhausted :: left ∨ (s.source = [] ∧ left = [])) →
        t.source = left ∧ t.dec = { s.dec with status := .trunc, st := .resp }) ∧
      (∀ b left, s.source = .byte b :: left →
        t.source = left ∧ t.dec.idx = s.dec.idx + 1 ∧ t.dec.k = s.dec.k ∧
        byteLane t.dec.buf s.dec.idx.toNat = b ∧
        (∀ i, i < 8 → i ≠ s.dec.idx.toNat → byteLane t.dec.buf i = byteLane s.dec.buf i) ∧
        (s.dec.idx.toNat + 1 = s.dec.k.cap → t.dec.status = .ok ∧ t.dec.st = .resp) ∧
        (s.dec.idx.toNat + 1 ≠ s.dec.k.cap → t.dec.status = s.dec.status ∧ t.dec.st = .rest))

/-- R174: transition D-RESPOND. -/
def Obligations.DecoderResponds : Prop :=
  ∀ (p : Pins) (rest : List Event) (s : State),
    s.sched = .edge p :: rest → p.rst = false → s.dec.st = .resp → p.decRspReady = true →
    ∃ t v, step s = .next t ∧ t.dec = { s.dec with st := .idle } ∧ t.source = s.source ∧
      t.decRsps = s.decRsps ++ [{ status := s.dec.status, value := v }] ∧
      (outputs s).decRspStatus = some s.dec.status.code ∧ (outputs s).decRspValue = some v ∧
      (s.dec.status = .ok → v = s.dec.buf >>> s.dec.k.ts) ∧ (s.dec.status ≠ .ok → v = 0)

/-- R175: were the InvalidTagError arm of D-FIRST reached, one byte would be taken, the status would be INVTAG, the next
transfer the response, with value 0, and `dec.k` would not be written. -/
def Obligations.InvalidTagArmEndsTheOperation : Prop :=
  ∀ (b : Byte) (s : State), s.dec.buf = 0#64 →
    decFirstAs none b s =
      { s with dec := { s.dec with buf := b.setWidth 64, idx := 1, status := .invTag, st := .resp } } ∧
    (decRespond (decFirstAs none b s)).decRsps = s.decRsps ++ [{ status := .invTag, value := 0 }]

/-- R51, R142, R173: at an edge with `rst = 0` a unit none of whose three ports has valid and ready both 1 does not
change, nor do its streams and responses. -/
def Obligations.NoHandshakeNoTransfer : Prop :=
  ∀ (p : Pins) (rest : List Event) (s : State), s.sched = .edge p :: rest → p.rst = false →
    ∃ t, step s = .next t ∧
      ((¬ (p.encReq.isSome = true ∧ (outputs s).encReqReady = true) ∧
        ¬ ((outputs s).snkValid = true ∧ p.snkReady = true) ∧
        ¬ ((outputs s).encRspValid = true ∧ p.encRspReady = true)) →
        t.enc = s.enc ∧ t.sink = s.sink ∧ t.encRsps = s.encRsps) ∧
      ((¬ (p.decReqValid = true ∧ (outputs s).decReqReady = true) ∧
        ¬ (p.srcValid = true ∧ (outputs s).srcReady = true) ∧
        ¬ ((outputs s).decRspValid = true ∧ p.decRspReady = true)) →
        t.dec = s.dec ∧ t.source = s.source ∧ t.decRsps = s.decRsps)

/-- R37: the ready and valid outputs of each unit, of which exactly one is 1 in every state (R245), and the payloads,
which have a value exactly while their valid is 1. -/
def Obligations.OutputsAreFunctionsOfTheState : Prop :=
  ∀ s : State,
    ((outputs s).encReqReady = true ↔ s.enc.st = .idle) ∧ ((outputs s).snkValid = true ↔ s.enc.st = .emit) ∧
    ((outputs s).encRspValid = true ↔ s.enc.st = .resp) ∧ ((outputs s).decReqReady = true ↔ s.dec.st = .idle) ∧
    ((outputs s).srcReady = true ↔ s.dec.st = .first ∨ s.dec.st = .rest) ∧
    ((outputs s).decRspValid = true ↔ s.dec.st = .resp) ∧
    [(outputs s).encReqReady, (outputs s).snkValid, (outputs s).encRspValid].count true = 1 ∧
    [(outputs s).decReqReady, (outputs s).srcReady, (outputs s).decRspValid].count true = 1 ∧
    (s.enc.st = .emit → (outputs s).snkData = some (s.enc.buf.extractLsb' (8 * s.enc.idx.toNat) 8)) ∧
    (s.enc.st = .resp → (outputs s).encRspStatus = some s.enc.status.code ∧
      (outputs s).encRspCount = some (s.enc.idx.setWidth 8)) ∧
    (s.dec.st = .resp → (outputs s).decRspStatus = some s.dec.status.code ∧
      (outputs s).decRspValue = some (if s.dec.status = .ok then s.dec.buf >>> s.dec.k.ts else 0))

/-! ### Reset -/

/-- R230, R231, R232: an edge with `rst = 1`, whatever the other pins and the state, makes both units idle and transfers
nothing on any port: what the streams and the requester have got so far stays, and no response is added. -/
def Obligations.ResetEdgeMakesBothUnitsIdle : Prop :=
  ∀ (p : Pins) (rest : List Event) (s : State), s.sched = .edge p :: rest → p.rst = true →
    ∃ t, step s = .next t ∧ t.enc.st = .idle ∧ t.dec.st = .idle ∧ t.sink = s.sink ∧ t.source = s.source ∧
      t.encRsps = s.encRsps ∧ t.decRsps = s.decRsps ∧ t.sched = rest

/-- R40, R41: the state right after reset, as far as the spec states it. -/
def Obligations.AfterResetBothUnitsAreReady : Prop :=
  State.reset.enc.st = .idle ∧ State.reset.dec.st = .idle ∧
    (outputs State.reset).encReqReady = true ∧ (outputs State.reset).snkValid = false ∧
    (outputs State.reset).encRspValid = false ∧ (outputs State.reset).decReqReady = true ∧
    (outputs State.reset).srcReady = false ∧ (outputs State.reset).decRspValid = false

/-! ### Independence of the two units -/

/-- R20: over any number of edges, the encoder's registers, the sink and the encoder's responses do not depend on the
decoder's registers, its streams or its pins; and the other way round. -/
def Obligations.NeitherUnitDependsOnTheOther : Prop :=
  ∀ (ps qs : List Pins) (restP restQ : List Event) (s t : State),
    s.sched = ps.map .edge ++ restP → t.sched = qs.map .edge ++ restQ → s.fresh = t.fresh →
    (List.Forall₂ (fun p q => p.rst = q.rst ∧ p.encReq = q.encReq ∧ p.snkReady = q.snkReady ∧
        p.encRspReady = q.encRspReady) ps qs →
      s.enc = t.enc → s.sink = t.sink → s.encRsps = t.encRsps →
      ∃ s' t' : State, Sys2Proof.core.run ps.length s = .next s' ∧ Sys2Proof.core.run qs.length t = .next t' ∧
        s'.enc = t'.enc ∧ s'.sink = t'.sink ∧ s'.encRsps = t'.encRsps) ∧
    (List.Forall₂ (fun p q => p.rst = q.rst ∧ p.decReqValid = q.decReqValid ∧ p.srcValid = q.srcValid ∧
        p.decRspReady = q.decRspReady) ps qs →
      s.dec = t.dec → s.source = t.source → s.decRsps = t.decRsps →
      ∃ s' t' : State, Sys2Proof.core.run ps.length s = .next s' ∧ Sys2Proof.core.run qs.length t = .next t' ∧
        s'.dec = t'.dec ∧ s'.source = t'.source ∧ s'.decRsps = t'.decRsps)

/-- R63: there is no order between the units: an edge on which both transfer is the two transfers in either order. -/
def Obligations.UnitsMayTransferInEitherOrder : Prop :=
  ∀ (p : Pins) (s : State), p.rst = false →
    clockEdge p s = decEdge p (encEdge p s) ∧ clockEdge p s = encEdge p (decEdge p s)

/-- R26: what the registers of an idle unit hold reaches no port: a whole `ENC` and a whole `DEC` end in the same state
whatever the idle unit's other registers held; a `DEC` with an empty source gives the same response. -/
def Obligations.StaleRegistersReachNoPort : Prop :=
  (∀ (v : Word) (u : EncUnit) (i : Instr) (s : State),
    i ∈ [.enc1 v, .enc2 v, .enc4 v, .enc8 v, .encErr v] → s.enc.st = .idle → u.st = .idle →
    exec i { s with enc := u } = exec i s) ∧
  (∀ (first : Byte) (u : DecUnit) (i : Instr) (s : State),
    i ∈ [.dec1 first, .dec2 first, .dec4 first, .dec8 first] → s.dec.st = .idle → u.st = .idle →
    exec i { s with dec := u } = exec i s) ∧
  (∀ (u : DecUnit) (rest : List Event) (s : State),
    s.source = [] → s.sched = .decOp :: rest → s.dec.st = .idle → u.st = .idle →
    ∃ t t' : State, step { s with dec := u } = .next t ∧ step s = .next t' ∧ t.decRsps = t'.decRsps)

/-! ### Invariants -/

/-- The invariants hold right after reset; that the responses and the streams are empty then is the model's choice
(log entry 1). -/
def Obligations.ResetMeetsTheInvariants : Prop :=
  RegInv State.reset ∧ ResponsesLegal State.reset ∧ SinkHoldsRecord State.reset

/-- R24: the invariants of the register table are kept by every step, from every state that meets them. -/
def Obligations.EveryStepKeepsTheRegisterInvariants : Prop :=
  ∀ s t : State, RegInv s → step s = .next t → RegInv t

/-- R33, R36, R207: every response a port ever carries is a legal one: the encoder reports OK with 1, 2, 4 or 8, or RANGE
with 0; the decoder OK with a value below 2^61, or TRUNC with 0; INVTAG never appears. -/
def Obligations.EveryStepKeepsResponsesLegal : Prop :=
  ∀ s t : State, RegInv s → ResponsesLegal s → step s = .next t → ResponsesLegal t

/-- R241, R64: while a record is being emitted the sink ends with its bytes so far, and when the response is offered with
status OK it ends with the whole record. -/
def Obligations.EveryStepKeepsTheRecordOnTheSink : Prop :=
  ∀ s t : State, RegInv s → SinkHoldsRecord s → step s = .next t → SinkHoldsRecord t

/-- R50: the sink is only appended to, the source only loses answers from its front, and responses are only added, by any
step from any state. -/
def Obligations.StreamsOnlyMoveForward : Prop :=
  ∀ s t : State, step s = .next t →
    (∃ more, t.sink = s.sink ++ more) ∧ (∃ taken, s.source = taken ++ t.source) ∧
    (∃ more, t.encRsps = s.encRsps ++ more) ∧ (∃ more, t.decRsps = s.decRsps ++ more)

/-! ### The wire format -/

/-- R137: the tagged record of a value its class can hold. -/
def Obligations.TaggedRecordHoldsTagAndValue : Prop :=
  ∀ (k : WidthClass) (v : Word), v.toNat < 2 ^ k.pb →
    (tagged k v).toNat = v.toNat * 2 ^ k.ts + k.tp.toNat ∧ (tagged k v).toNat < 2 ^ (8 * k.cap) ∧
    tagged k v &&& k.mask.setWidth 64 = k.tp.setWidth 64 ∧ tagged k v >>> k.ts = v

/-- R87: the record of a value in any class that can hold it, byte by byte: it has `cap` bytes, the low `ts` bits of byte 0
are the tag, and every other bit is the value's. -/
def Obligations.RecordBytesAreTagThenValueBits : Prop :=
  ∀ (k : WidthClass) (v : Word), v.toNat < 2 ^ k.pb →
    (lanes k.cap (tagged k v)).length = k.cap ∧
    ∀ (i j : Nat) (b : Byte), (lanes k.cap (tagged k v))[i]? = some b → j < 8 →
      b.getLsbD j = if 8 * i + j < k.ts then k.tp.getLsbD j else v.getLsbD (8 * i + j - k.ts)

/-- R139: one `ENC` appends exactly `encode(v)` to the sink and its response carries the length, or RANGE. -/
def Obligations.EncodeOperationIsEncode : Prop :=
  ∀ (v : Word) (rest : List Event) (s : State), s.enc.st = .idle → s.sched = .encOp v :: rest →
    ∃ u : EncUnit, u.st = .idle ∧
      step s = .next { s with
        sched := rest, enc := u, sink := s.sink ++ (encodeRecord v).bytes
        encRsps := s.encRsps ++ [(encodeRecord v).response] }

/-- R161, R173: one `DEC` leaves in the source what `decode` leaves and responds with the result of `decode`. -/
def Obligations.DecodeOperationIsDecode : Prop :=
  ∀ (rest : List Event) (s : State), s.dec.st = .idle → s.sched = .decOp :: rest →
    ∃ u : DecUnit, u.st = .idle ∧
      step s = .next { s with
        sched := rest, dec := u, source := (decodeRecord s.source).2
        decRsps := s.decRsps ++ [(decodeRecord s.source).1.response] }

/-- R144: the record is the shortest among the classes that can hold the value. -/
def Obligations.EncodedRecordIsMinimal : Prop :=
  ∀ (v : Word) (bytes : List Byte), encodeRecord v = .ok bytes →
    (∀ k : WidthClass, v.toNat < 2 ^ k.pb → bytes.length ≤ k.cap) ∧
    ∃ k : WidthClass, v.toNat < 2 ^ k.pb ∧ bytes.length = k.cap

/-- R145: no two values have the same record, and no record is a proper beginning of another. -/
def Obligations.EncodingIsInjectiveAndPrefixFree : Prop :=
  ∀ (v w : Word) (bytes more : List Byte),
    encodeRecord v = .ok bytes → encodeRecord w = .ok (bytes ++ more) → v = w ∧ more = []

/-- R146: RangeError for every value from 2^61 on, and for no other. -/
def Obligations.RangeErrorExactlyFromTwoPow61 : Prop :=
  ∀ v : Word, encodeRecord v = .rangeError ↔ 2 ^ 61 ≤ v.toNat

/-- R176, R91: a complete record of any class that can hold the value decodes to it, minimal or not, and the bytes after
it stay. -/
def Obligations.RecordOfAnyClassDecodesToItsValue : Prop :=
  ∀ (k : WidthClass) (v : Word) (left : List Answer), v.toNat < 2 ^ k.pb →
    decodeRecord ((lanes k.cap (tagged k v)).map .byte ++ left) = (.ok v, left)

/-- R177, R70, R92: a decode that ends OK has removed exactly the bytes of one record, whose number the low three bits of
the first byte give, and its value is below 2^61, and so can be encoded. -/
def Obligations.DecodedRecordHasTheLengthOfItsFirstByte : Prop :=
  ∀ (src left : List Answer) (v : Word), decodeRecord src = (.ok v, left) →
    ∃ (first : Byte) (got : List Byte), src = (first :: got).map .byte ++ left ∧
      got.length + 1 = [8, 1, 2, 1, 4, 1, 2, 1][first.toNat % 8]! ∧
      v.toNat < [2 ^ 61, 2 ^ 7, 2 ^ 14, 2 ^ 7, 2 ^ 29, 2 ^ 7, 2 ^ 14, 2 ^ 7][first.toNat % 8]! ∧
      encodeRecord v ≠ .rangeError

/-- R182: a source with fewer bytes than the record its first byte announces is TruncatedInputError; its bytes are gone
and nothing after its `Exhausted` answer is read. -/
def Obligations.TruncationNeverReadsBeyondTheSource : Prop :=
  ∀ (first : Byte) (got : List Byte) (k : WidthClass) (left : List Answer),
    matchTag first = some k → got.length + 1 < k.cap →
    decodeRecord ((first :: got).map .byte) = (.truncatedInputError, []) ∧
    decodeRecord ((first :: got).map .byte ++ .exhausted :: left) = (.truncatedInputError, left)

/-- R180: what an `ENC` put on the sink, given to the source, a `DEC` turns back into the value, taking those bytes and
no other. -/
def Obligations.DecodeAfterEncodeGivesTheValueBack : Prop :=
  ∀ (v : Word) (left : List Answer) (rest : List Event) (s : State),
    v.toNat < 2 ^ 61 → s.enc.st = .idle → s.dec.st = .idle → s.sched = .encOp v :: .decOp :: rest →
    ∃ (t u : State) (bytes : List Byte), step s = .next t ∧ t.sink = s.sink ++ bytes ∧
      step { t with source := bytes.map .byte ++ left } = .next u ∧
      u.source = left ∧ u.decRsps = s.decRsps ++ [{ status := .ok, value := v }]

/-! ### Whole runs -/

/-- R130, R142, R160, R173, R203: ten edges, a request and nine on which the environment completes whatever transfer the
unit offers, do exactly what the whole operation does (log entry 4). -/
def Obligations.TransferByTransferIsTheOperation : Prop :=
  (∀ (v : Word) (rest : List Event) (s : State), s.enc.st = .idle →
    Sys2Proof.core.run 10 { s with sched := .edge (requestEncode v) :: (edges 9 serveEncoder ++ rest) } =
      step { s with sched := .encOp v :: rest }) ∧
  (∀ (rest : List Event) (s : State), s.dec.st = .idle →
    Sys2Proof.core.run 10 { s with sched := .edge requestDecode :: (edges 9 serveDecoder ++ rest) } =
      step { s with sched := .decOp :: rest })

/-- R142, R63: with any stalls and whatever the decoder does, the transfers of an `ENC` are the bytes of `encode(v)` in
order, then one response; as long as the operation is in flight there is no response. -/
def Obligations.EncodeIsTheSameUnderAnyStalls : Prop :=
  ∀ (v : Word) (ps : List Pins) (rest : List Event) (s : State), s.enc.st = .idle →
    (∀ p ∈ ps, p.rst = false ∧ p.encReq = none) →
    ∃ (t : State) (j : Nat),
      Sys2Proof.core.run (ps.length + 1) { s with sched := .edge (requestEncode v) :: (ps.map .edge ++ rest) } =
        .next t ∧
      t.sink = s.sink ++ (encodeRecord v).bytes.take j ∧
      ((t.enc.st = .idle ∧ (encodeRecord v).bytes.length ≤ j ∧
          t.encRsps = s.encRsps ++ [(encodeRecord v).response]) ∨
        (t.enc.st ≠ .idle ∧ t.encRsps = s.encRsps))

/-- R203, R245: from every state that meets the register invariants, a unit whose offered transfers the environment
completes is idle after at most nine more, whatever the other unit does. -/
def Obligations.EveryOperationEndsWithinTenTransfers : Prop :=
  ∀ (ps : List Pins) (rest : List Event) (s : State), RegInv s → ps.length = 9 → s.sched = ps.map .edge ++ rest →
    ((∀ p ∈ ps, p.rst = false ∧ p.encReq = none ∧ p.snkReady = true ∧ p.encRspReady = true) →
      ∃ t : State, Sys2Proof.core.run 9 s = .next t ∧ t.enc.st = .idle) ∧
    ((∀ p ∈ ps, p.rst = false ∧ p.decReqValid = false ∧ p.srcValid = true ∧ p.decRspReady = true) →
      ∃ t : State, Sys2Proof.core.run 9 s = .next t ∧ t.dec.st = .idle)

/-- R65: after any list of `ENC` operations the sink holds the concatenation of their records, in request order, with
nothing in between, and the responses are in the same order. -/
def Obligations.SinkIsTheConcatenationOfTheRecords : Prop :=
  ∀ (vs : List Word) (rest : List Event) (s : State), s.enc.st = .idle →
    ∃ t : State, Sys2Proof.core.run vs.length { s with sched := vs.map .encOp ++ rest } = .next t ∧
      t.sink = s.sink ++ vs.flatMap (fun v => (encodeRecord v).bytes) ∧
      t.encRsps = s.encRsps ++ vs.map (fun v => (encodeRecord v).response) ∧
      t.enc.st = .idle ∧ t.dec = s.dec ∧ t.source = s.source ∧ t.decRsps = s.decRsps ∧ t.sched = rest

/-- R70, R92: records that follow one another with nothing in between decode one per `DEC`, in order, and what comes after
them stays in the source. -/
def Obligations.BackToBackRecordsDecodeInOrder : Prop :=
  ∀ (vs : List Word) (left : List Answer) (rest : List Event) (s : State),
    (∀ v ∈ vs, v.toNat < 2 ^ 61) → s.dec.st = .idle →
    s.source = (vs.flatMap fun v => (encodeRecord v).bytes).map .byte ++ left →
    ∃ t : State,
      Sys2Proof.core.run vs.length { s with sched := List.replicate vs.length .decOp ++ rest } = .next t ∧
      t.source = left ∧ t.decRsps = s.decRsps ++ vs.map (fun v => { status := .ok, value := v }) ∧
      t.dec.st = .idle ∧ t.enc = s.enc ∧ t.sink = s.sink ∧ t.encRsps = s.encRsps ∧ t.sched = rest
end

