-- ==== Sys2Proof/Laws/Lut.lean ====
section
/-! SUPPORT. The table and the two lookups, each said once. -/

namespace Sys2Proof.Machine

@[simp] theorem cap_one : WidthClass.one.cap = 1 := rfl
@[simp] theorem cap_two : WidthClass.two.cap = 2 := rfl
@[simp] theorem cap_four : WidthClass.four.cap = 4 := rfl
@[simp] theorem cap_eight : WidthClass.eight.cap = 8 := rfl
@[simp] theorem ts_one : WidthClass.one.ts = 1 := rfl
@[simp] theorem ts_two : WidthClass.two.ts = 2 := rfl
@[simp] theorem ts_four : WidthClass.four.ts = 3 := rfl
@[simp] theorem ts_eight : WidthClass.eight.ts = 3 := rfl
@[simp] theorem pb_one : WidthClass.one.pb = 7 := rfl
@[simp] theorem pb_two : WidthClass.two.pb = 14 := rfl
@[simp] theorem pb_four : WidthClass.four.pb = 29 := rfl
@[simp] theorem pb_eight : WidthClass.eight.pb = 61 := rfl
@[simp] theorem tp_one : WidthClass.one.tp = 1#8 := rfl
@[simp] theorem tp_two : WidthClass.two.tp = 2#8 := rfl
@[simp] theorem tp_four : WidthClass.four.tp = 4#8 := rfl
@[simp] theorem tp_eight : WidthClass.eight.tp = 0#8 := rfl
@[simp] theorem mask_one : WidthClass.one.mask = 1#8 := rfl
@[simp] theorem mask_two : WidthClass.two.mask = 3#8 := rfl
@[simp] theorem mask_four : WidthClass.four.mask = 7#8 := rfl
@[simp] theorem mask_eight : WidthClass.eight.mask = 7#8 := rfl

theorem mem_all (k : WidthClass) : k ∈ WidthClass.all := by cases k <;> decide

theorem ofIndex_index (k : WidthClass) : WidthClass.ofIndex k.index = k := by cases k <;> rfl

/-- `select` as a chain of comparisons. -/
theorem select_eq (v : Word) :
    select v = if v.toNat < 2 ^ 7 then some .one else if v.toNat < 2 ^ 14 then some .two
      else if v.toNat < 2 ^ 29 then some .four else if v.toNat < 2 ^ 61 then some .eight else none := by
  simp only [select, WidthClass.all, List.find?, pb_one, pb_two, pb_four, pb_eight]
  by_cases h1 : v.toNat < 2 ^ 7 <;> by_cases h2 : v.toNat < 2 ^ 14 <;> by_cases h3 : v.toNat < 2 ^ 29 <;>
    by_cases h4 : v.toNat < 2 ^ 61 <;> simp only [h1, h2, h3, h4, decide_true, decide_false, if_true, if_false]

/-- What `select` answers bounds the value from above. -/
theorem lt_of_select {v : Word} {k : WidthClass} (h : select v = some k) : v.toNat < 2 ^ k.pb := by
  simpa [select] using List.find?_some h

/-- `matchTag` answers a class whose tag the byte carries. -/
theorem tag_of_matchTag {b : Byte} {k : WidthClass} (h : matchTag b = some k) : b &&& k.mask = k.tp := by
  simpa [matchTag] using List.find?_some h

theorem mul_pow_and_eq_zero {x n q : Nat} (h : x < 2 ^ n) : x &&& (2 ^ n * q) = 0 := by
  apply Nat.eq_of_testBit_eq
  intro i
  rw [Nat.testBit_and, Nat.testBit_two_pow_mul, Nat.zero_testBit]
  by_cases hi : n ≤ i
  · rw [Nat.testBit_lt_two_pow (Nat.lt_of_lt_of_le h (Nat.pow_le_pow_right (by decide) hi)), Bool.false_and]
  · simp [hi]

end Sys2Proof.Machine
end

