-- ==== Sys2Proof/Laws/State.lean ====
section
/-! SUPPORT. What each operation leaves in each field of the state. -/

namespace Sys2Proof.Machine

/-! ### s.sinkEmit b -/

@[simp] theorem sinkEmit_enc (b : Byte) (s : State) : (s.sinkEmit b).enc = s.enc := rfl
@[simp] theorem sinkEmit_dec (b : Byte) (s : State) : (s.sinkEmit b).dec = s.dec := rfl
@[simp] theorem sinkEmit_source (b : Byte) (s : State) : (s.sinkEmit b).source = s.source := rfl
@[simp] theorem sinkEmit_sink (b : Byte) (s : State) : (s.sinkEmit b).sink = s.sink ++ [b] := rfl
@[simp] theorem sinkEmit_encRsps (b : Byte) (s : State) : (s.sinkEmit b).encRsps = s.encRsps := rfl
@[simp] theorem sinkEmit_decRsps (b : Byte) (s : State) : (s.sinkEmit b).decRsps = s.decRsps := rfl
@[simp] theorem sinkEmit_sched (b : Byte) (s : State) : (s.sinkEmit b).sched = s.sched := rfl
@[simp] theorem sinkEmit_fresh (b : Byte) (s : State) : (s.sinkEmit b).fresh = s.fresh := rfl

/-! ### s.srcPull.2 -/

@[simp] theorem srcPull_enc (s : State) : (s.srcPull.2).enc = s.enc := rfl
@[simp] theorem srcPull_dec (s : State) : (s.srcPull.2).dec = s.dec := rfl
@[simp] theorem srcPull_source (s : State) : (s.srcPull.2).source = (nextAnswer s.source).2 := rfl
@[simp] theorem srcPull_sink (s : State) : (s.srcPull.2).sink = s.sink := rfl
@[simp] theorem srcPull_encRsps (s : State) : (s.srcPull.2).encRsps = s.encRsps := rfl
@[simp] theorem srcPull_decRsps (s : State) : (s.srcPull.2).decRsps = s.decRsps := rfl
@[simp] theorem srcPull_sched (s : State) : (s.srcPull.2).sched = s.sched := rfl
@[simp] theorem srcPull_fresh (s : State) : (s.srcPull.2).fresh = s.fresh := rfl

/-! ### s.raiseRange -/

@[simp] theorem raiseRange_enc (s : State) : (s.raiseRange).enc = { st := .resp, buf := 0, cap := 0, idx := 0, status := .range } := rfl
@[simp] theorem raiseRange_dec (s : State) : (s.raiseRange).dec = s.dec := rfl
@[simp] theorem raiseRange_source (s : State) : (s.raiseRange).source = s.source := rfl
@[simp] theorem raiseRange_sink (s : State) : (s.raiseRange).sink = s.sink := rfl
@[simp] theorem raiseRange_encRsps (s : State) : (s.raiseRange).encRsps = s.encRsps := rfl
@[simp] theorem raiseRange_decRsps (s : State) : (s.raiseRange).decRsps = s.decRsps := rfl
@[simp] theorem raiseRange_sched (s : State) : (s.raiseRange).sched = s.sched := rfl
@[simp] theorem raiseRange_fresh (s : State) : (s.raiseRange).fresh = s.fresh := rfl

/-! ### s.decFinish c -/

@[simp] theorem decFinish_enc (c : Status) (s : State) : (s.decFinish c).enc = s.enc := rfl
@[simp] theorem decFinish_dec (c : Status) (s : State) : (s.decFinish c).dec = { s.dec with status := c, st := .resp } := rfl
@[simp] theorem decFinish_source (c : Status) (s : State) : (s.decFinish c).source = s.source := rfl
@[simp] theorem decFinish_sink (c : Status) (s : State) : (s.decFinish c).sink = s.sink := rfl
@[simp] theorem decFinish_encRsps (c : Status) (s : State) : (s.decFinish c).encRsps = s.encRsps := rfl
@[simp] theorem decFinish_decRsps (c : Status) (s : State) : (s.decFinish c).decRsps = s.decRsps := rfl
@[simp] theorem decFinish_sched (c : Status) (s : State) : (s.decFinish c).sched = s.sched := rfl
@[simp] theorem decFinish_fresh (c : Status) (s : State) : (s.decFinish c).fresh = s.fresh := rfl

/-! ### encEmit s -/

@[simp] theorem encEmit_enc (s : State) : (encEmit s).enc = { s.enc with
      idx := s.enc.idx + 1, st := if s.enc.idx + 1 = s.enc.cap then .resp else s.enc.st } := rfl
@[simp] theorem encEmit_dec (s : State) : (encEmit s).dec = s.dec := rfl
@[simp] theorem encEmit_source (s : State) : (encEmit s).source = s.source := rfl
@[simp] theorem encEmit_sink (s : State) : (encEmit s).sink = s.sink ++ [s.enc.sinkByte] := rfl
@[simp] theorem encEmit_encRsps (s : State) : (encEmit s).encRsps = s.encRsps := rfl
@[simp] theorem encEmit_decRsps (s : State) : (encEmit s).decRsps = s.decRsps := rfl
@[simp] theorem encEmit_sched (s : State) : (encEmit s).sched = s.sched := rfl
@[simp] theorem encEmit_fresh (s : State) : (encEmit s).fresh = s.fresh := rfl

/-! ### encRespond s -/

@[simp] theorem encRespond_enc (s : State) : (encRespond s).enc = { s.enc with st := .idle } := rfl
@[simp] theorem encRespond_dec (s : State) : (encRespond s).dec = s.dec := rfl
@[simp] theorem encRespond_source (s : State) : (encRespond s).source = s.source := rfl
@[simp] theorem encRespond_sink (s : State) : (encRespond s).sink = s.sink := rfl
@[simp] theorem encRespond_encRsps (s : State) : (encRespond s).encRsps = s.encRsps ++ [s.enc.response] := rfl
@[simp] theorem encRespond_decRsps (s : State) : (encRespond s).decRsps = s.decRsps := rfl
@[simp] theorem encRespond_sched (s : State) : (encRespond s).sched = s.sched := rfl
@[simp] theorem encRespond_fresh (s : State) : (encRespond s).fresh = s.fresh := rfl

/-! ### decAccept s -/

@[simp] theorem decAccept_enc (s : State) : (decAccept s).enc = s.enc := rfl
@[simp] theorem decAccept_dec (s : State) : (decAccept s).dec = { s.dec with buf := 0, idx := 0, st := .first } := rfl
@[simp] theorem decAccept_source (s : State) : (decAccept s).source = s.source := rfl
@[simp] theorem decAccept_sink (s : State) : (decAccept s).sink = s.sink := rfl
@[simp] theorem decAccept_encRsps (s : State) : (decAccept s).encRsps = s.encRsps := rfl
@[simp] theorem decAccept_decRsps (s : State) : (decAccept s).decRsps = s.decRsps := rfl
@[simp] theorem decAccept_sched (s : State) : (decAccept s).sched = s.sched := rfl
@[simp] theorem decAccept_fresh (s : State) : (decAccept s).fresh = s.fresh := rfl

/-! ### decRespond s -/

@[simp] theorem decRespond_enc (s : State) : (decRespond s).enc = s.enc := rfl
@[simp] theorem decRespond_dec (s : State) : (decRespond s).dec = { s.dec with st := .idle } := rfl
@[simp] theorem decRespond_source (s : State) : (decRespond s).source = s.source := rfl
@[simp] theorem decRespond_sink (s : State) : (decRespond s).sink = s.sink := rfl
@[simp] theorem decRespond_encRsps (s : State) : (decRespond s).encRsps = s.encRsps := rfl
@[simp] theorem decRespond_decRsps (s : State) : (decRespond s).decRsps = s.decRsps ++ [s.dec.response] := rfl
@[simp] theorem decRespond_sched (s : State) : (decRespond s).sched = s.sched := rfl
@[simp] theorem decRespond_fresh (s : State) : (decRespond s).fresh = s.fresh := rfl

/-! ### s.resetEdge -/

@[simp] theorem resetEdge_enc_st (s : State) : (s.resetEdge).enc.st = .idle := rfl
@[simp] theorem resetEdge_dec_st (s : State) : (s.resetEdge).dec.st = .idle := rfl
@[simp] theorem resetEdge_source (s : State) : (s.resetEdge).source = s.source := rfl
@[simp] theorem resetEdge_sink (s : State) : (s.resetEdge).sink = s.sink := rfl
@[simp] theorem resetEdge_encRsps (s : State) : (s.resetEdge).encRsps = s.encRsps := rfl
@[simp] theorem resetEdge_decRsps (s : State) : (s.resetEdge).decRsps = s.decRsps := rfl
@[simp] theorem resetEdge_sched (s : State) : (s.resetEdge).sched = s.sched := rfl
@[simp] theorem resetEdge_fresh (s : State) : (s.resetEdge).fresh = s.fresh + 1 := rfl

@[simp] theorem srcPull_answer (s : State) : s.srcPull.1 = (nextAnswer s.source).1 := rfl

end Sys2Proof.Machine
end

