-- ==== Sys2Proof/Laws/Ops.lean ====
section
/-! SUPPORT. Byte lanes, records, and what each shared operation can do. -/

namespace Sys2Proof.Machine

/-! ### Byte lanes -/

theorem getLsbD_byteLane (x : Word) (i j : Nat) :
    (byteLane x i).getLsbD j = (decide (j < 8) && x.getLsbD (8 * i + j)) := by
  simp [byteLane, BitVec.getLsbD_extractLsb']

theorem getLsbD_setByteLane (x : Word) (i : Nat) (b : Byte) (j : Nat) :
    (setByteLane x i b).getLsbD j =
      (decide (j < 64) && (if 8 * i ≤ j ∧ j < 8 * i + 8 then b.getLsbD (j - 8 * i) else x.getLsbD j)) := by
  have key : (0xFF#64 <<< (8 * i)).getLsbD j = (decide (j < 64) && decide (8 * i ≤ j ∧ j < 8 * i + 8)) := by
    have ones : ∀ m, (0xFF#64).getLsbD m = decide (m < 8) := by
      intro m
      by_cases hm : m < 64
      · interval_cases m <;> decide
      · rw [BitVec.getLsbD_of_ge _ _ (by omega)]; simp; omega
    rw [BitVec.getLsbD_shiftLeft, ones]
    by_cases h1 : j < 64 <;> by_cases h2 : 8 * i ≤ j <;> by_cases h3 : j < 8 * i + 8 <;>
      simp [h1, h2, h3] <;> omega
  simp only [setByteLane, BitVec.getLsbD_or, BitVec.getLsbD_and, BitVec.getLsbD_not, key, BitVec.getLsbD_shiftLeft,
    BitVec.getLsbD_setWidth]
  by_cases h1 : j < 64 <;> by_cases h2 : 8 * i ≤ j <;> by_cases h3 : j < 8 * i + 8 <;>
    simp [h1, h2, h3]
  · have : ¬ j < 8 * i := by omega
    simp [this]; intro; omega
  · have : ¬ j < 8 * i := by omega
    rw [BitVec.getLsbD_of_ge b _ (by omega)]; simp

/-- Two words with the same bits are the same word. -/
theorem word_ext {x y : Word} (h : ∀ j, j < 64 → x.getLsbD j = y.getLsbD j) : x = y :=
  BitVec.eq_of_getLsbD_eq h

theorem getLsbD_of_lt_two_pow {x : Word} {n j : Nat} (h : x.toNat < 2 ^ n) (hj : n ≤ j) : x.getLsbD j = false :=
  Nat.testBit_lt_two_pow (Nat.lt_of_lt_of_le h (Nat.pow_le_pow_right (by decide) hj))

theorem toNat_lt_two_pow {x : Word} {n : Nat} (h : ∀ j, n ≤ j → j < 64 → x.getLsbD j = false) : x.toNat < 2 ^ n := by
  apply Nat.lt_pow_two_of_testBit
  intro j hj
  by_cases h64 : j < 64
  · exact h j hj h64
  · exact BitVec.getLsbD_of_ge x j (by omega)

/-- Writing the byte position just above a short buffer keeps the bytes below it. -/
theorem setByteLane_eq_or {x : Word} {i : Nat} (b : Byte) (h : x.toNat < 2 ^ (8 * i)) :
    setByteLane x i b = x ||| (b.setWidth 64 <<< (8 * i)) := by
  apply word_ext
  intro j hj
  rw [getLsbD_setByteLane, BitVec.getLsbD_or, BitVec.getLsbD_shiftLeft, BitVec.getLsbD_setWidth]
  by_cases h1 : 8 * i ≤ j
  · rw [getLsbD_of_lt_two_pow h h1]
    by_cases h2 : j < 8 * i + 8
    · have : ¬ j < 8 * i := by omega
      simp [hj, h1, h2, this]; omega
    · rw [BitVec.getLsbD_of_ge b _ (by omega)]; simp [hj, h1, h2]
  · have : j < 8 * i := by omega
    simp [hj, h1, this]

/-- A buffer of `i` bytes has `i + 1` bytes once the next byte position is written. -/
theorem toNat_setByteLane_lt {x : Word} {i : Nat} (b : Byte) (h : x.toNat < 2 ^ (8 * i)) :
    (setByteLane x i b).toNat < 2 ^ (8 * (i + 1)) := by
  apply toNat_lt_two_pow
  intro j hj h64
  rw [getLsbD_setByteLane, getLsbD_of_lt_two_pow h (by omega)]
  have : ¬ (8 * i ≤ j ∧ j < 8 * i + 8) := by omega
  simp [this]

/-- Writing a byte position above byte 0 keeps the tag. -/
theorem setByteLane_tag {x : Word} {i : Nat} {k : WidthClass} (b : Byte) (hi : 1 ≤ i) :
    setByteLane x i b &&& k.mask.setWidth 64 = x &&& k.mask.setWidth 64 := by
  apply word_ext
  intro j hj
  rw [BitVec.getLsbD_and, BitVec.getLsbD_and, getLsbD_setByteLane, BitVec.getLsbD_setWidth]
  by_cases h8 : j < 8
  · have : ¬ (8 * i ≤ j ∧ j < 8 * i + 8) := by omega
    simp [hj, this]
  · rw [BitVec.getLsbD_of_ge k.mask j (by omega)]; simp

/-! ### Records -/

@[simp] theorem lanes_zero (x : Word) : lanes 0 x = [] := rfl

theorem lanes_succ (n : Nat) (x : Word) : lanes (n + 1) x = lanes n x ++ [byteLane x n] := by
  simp [lanes, List.range_succ]

@[simp] theorem length_lanes (n : Nat) (x : Word) : (lanes n x).length = n := by simp [lanes]

@[simp] theorem nextAnswer_nil : nextAnswer [] = (.exhausted, []) := rfl

@[simp] theorem nextAnswer_cons (a : Answer) (l : List Answer) : nextAnswer (a :: l) = (a, l) := rfl

/-- The bytes of a record in port order as one word (spec/42_decoder.md R168). -/
def assemble : List Byte → Word
  | [] => 0
  | b :: bs => b.setWidth 64 ||| (assemble bs <<< 8)

/-- A byte below an assembled record is one step of `assemble`. -/
theorem setWidth_append (m : Nat) (x : BitVec m) (y : Byte) :
    (x ++ y).setWidth 64 = y.setWidth 64 ||| (x.setWidth 64 <<< 8) := by
  apply word_ext
  intro j hj
  rw [BitVec.getLsbD_setWidth, BitVec.getLsbD_append, BitVec.getLsbD_or, BitVec.getLsbD_shiftLeft,
    BitVec.getLsbD_setWidth, BitVec.getLsbD_setWidth]
  by_cases h : j < 8
  · simp [h, hj]
  · rw [BitVec.getLsbD_of_ge y j (by omega)]
    simp [h, hj]; intro; omega

/-- Placing one byte and then the bytes after it is placing all of them. -/
theorem assemble_cons_shift (b : Byte) (bs : List Byte) (i : Nat) :
    b.setWidth 64 <<< (8 * i) ||| (assemble bs <<< (8 * (i + 1))) = assemble (b :: bs) <<< (8 * i) := by
  rw [assemble, BitVec.shiftLeft_or_distrib, ← BitVec.shiftLeft_add, show 8 + 8 * i = 8 * (i + 1) by omega]

/-! ### `decode`'s last two steps -/

/-- On a source that has the bytes wanted. -/
theorem decodeTail_bytes (k : WidthClass) (got : List Byte) (i : Nat) (r : Word) (left : List Answer) :
    decodeTail k got.length i r (got.map .byte ++ left) =
      (.ok (payload k (r ||| (assemble got <<< (8 * i)))), left) := by
  induction got generalizing i r with
  | nil => simp [decodeTail, assemble]
  | cons b bs ih =>
    simp only [List.length_cons, decodeTail, List.map_cons, List.cons_append, nextAnswer_cons]
    rw [ih, BitVec.or_assoc, assemble_cons_shift]

/-- On a source that runs out before. -/
theorem decodeTail_short (k : WidthClass) (got : List Byte) (n i : Nat) (r : Word) (src : List Answer)
    (hn : got.length < n) (hsrc : (nextAnswer src).1 = .exhausted) :
    decodeTail k n i r (got.map .byte ++ src) = (.truncatedInputError, (nextAnswer src).2) := by
  induction got generalizing i r n with
  | nil =>
    obtain ⟨n, rfl⟩ : ∃ j, n = j + 1 := ⟨n - 1, by omega⟩
    rcases h : nextAnswer src with ⟨a, rest⟩
    simp_all [decodeTail]
  | cons b bs ih =>
    obtain ⟨n, rfl⟩ : ∃ j, n = j + 1 := ⟨n - 1, by omega⟩
    simp only [decodeTail, List.map_cons, List.cons_append, nextAnswer_cons]
    exact ih _ _ _ (by simpa using hn)

/-- Every source has the next `n` bytes, or runs out before. -/
theorem source_bytes_or_short (n : Nat) (src : List Answer) :
    (∃ (got : List Byte) (left : List Answer), got.length = n ∧ src = got.map .byte ++ left) ∨
      (∃ (got : List Byte) (left : List Answer), got.length < n ∧ src = got.map .byte ++ left ∧ (nextAnswer left).1 = .exhausted) := by
  induction n generalizing src with
  | zero => exact .inl ⟨[], src, rfl, rfl⟩
  | succ n ih =>
    match src with
    | [] => exact .inr ⟨[], [], by simp⟩
    | .exhausted :: left => exact .inr ⟨[], .exhausted :: left, by simp⟩
    | .byte b :: src =>
      rcases ih src with ⟨got, left, h, rfl⟩ | ⟨got, left, h, rfl, hl⟩
      · exact .inl ⟨b :: got, left, by simp [h]⟩
      · exact .inr ⟨b :: got, left, by simp [h, hl]⟩

/-! ### Registers -/

theorem toNat_capBits (k : WidthClass) : k.capBits.toNat = k.cap := rfl

end Sys2Proof.Machine
end

