-- ==== Sys2Proof/Laws/Decoder.lean ====
section
/-! SUPPORT. The decoder: each transition and the whole operation, said once. -/

namespace Sys2Proof.Machine

@[simp] theorem decFirst_exhausted (s : State) : decFirst .exhausted s = s.decFinish .trunc := rfl

@[simp] theorem decFirst_byte (b : Byte) (s : State) : decFirst (.byte b) s = decFirstAs (matchTag b) b s := rfl

@[simp] theorem decRest_exhausted (s : State) : decRest .exhausted s = s.decFinish .trunc := rfl

@[simp] theorem decRest_byte (b : Byte) (s : State) : decRest (.byte b) s = decRestByte b s := rfl

theorem decRestAll_stop {n : Nat} {s : State} (h : s.dec.st ≠ .rest) : decRestAll n s = s := by
  cases n with
  | zero => rfl
  | succ n => cases hs : s.dec.st <;> simp_all [decRestAll]

theorem decRestAll_succ {n : Nat} {s : State} (h : s.dec.st = .rest) :
    decRestAll (n + 1) s = decRestAll n (decRest s.srcPull.1 s.srcPull.2) := by
  simp [decRestAll, h]

/-- A `DEC` operation always answers a next state: the whole run when the decoder is idle, the same state when not. -/
theorem decOperation_cases (k : WidthClass) (first : Byte) (s : State) :
    (s.dec.st = .idle ∧ decOperation k first s = .next (decRun (some k) first s)) ∨
      (s.dec.st ≠ .idle ∧ decOperation k first s = .next s) := by
  by_cases h : s.dec.st = .idle <;> simp [decOperation, DecUnit.reqReady, h]

/-- What the decoder's part of an edge can do: nothing, or the one transition its state allows. -/
theorem decEdge_cases (p : Pins) (s : State) :
    decEdge p s = s ∨
      (s.dec.st = .idle ∧ p.decReqValid = true ∧ decEdge p s = decAccept s) ∨
      (s.dec.st = .first ∧ p.srcValid = true ∧ decEdge p s = decFirst s.srcPull.1 s.srcPull.2) ∨
      (s.dec.st = .rest ∧ p.srcValid = true ∧ decEdge p s = decRest s.srcPull.1 s.srcPull.2) ∨
      (s.dec.st = .resp ∧ p.decRspReady = true ∧ decEdge p s = decRespond s) := by
  cases hs : s.dec.st
  · cases hv : p.decReqValid <;> simp [decEdge, hs, hv]
  · cases hv : p.srcValid <;> simp [decEdge, hs, hv]
  · cases hv : p.srcValid <;> simp [decEdge, hs, hv]
  · cases hv : p.decRspReady <;> simp [decEdge, hs, hv]

/-- D-FIRST and D-REST write the decoder unit's registers only. -/
theorem decFirst_eq (a : Answer) (s : State) : decFirst a s = { s with dec := (decFirst a s).dec } := by
  cases a with
  | exhausted => rfl
  | byte b =>
    simp only [decFirst_byte, decFirstAs]
    cases matchTag b with
    | none => rfl
    | some k => by_cases h : k.cap = 1 <;> simp [h]

theorem decRest_eq (a : Answer) (s : State) : decRest a s = { s with dec := (decRest a s).dec } := by
  cases a with
  | exhausted => rfl
  | byte b => by_cases h : s.dec.idx + 1 = s.dec.k.capBits <;> simp only [decRest_byte, decRestByte, h, if_true, if_false]

/-- The decoder's part of an edge touches nothing of the encoder. -/
theorem decEdge_frame (p : Pins) (s : State) :
    (decEdge p s).enc = s.enc ∧ (decEdge p s).sink = s.sink ∧ (decEdge p s).encRsps = s.encRsps ∧
      (decEdge p s).sched = s.sched ∧ (decEdge p s).fresh = s.fresh := by
  rcases decEdge_cases p s with h | ⟨_, _, h⟩ | ⟨_, _, h⟩ | ⟨_, _, h⟩ | ⟨_, _, h⟩ <;> rw [h]
  · exact ⟨rfl, rfl, rfl, rfl, rfl⟩
  · exact ⟨rfl, rfl, rfl, rfl, rfl⟩
  · rw [decFirst_eq]; exact ⟨rfl, rfl, rfl, rfl, rfl⟩
  · rw [decRest_eq]; exact ⟨rfl, rfl, rfl, rfl, rfl⟩
  · exact ⟨rfl, rfl, rfl, rfl, rfl⟩

theorem cap_le (k : WidthClass) : k.cap ≤ 8 := by cases k <;> decide

/-- `dec.idx + 1` reaches `cap(k)` exactly as the numbers do. -/
theorem idx_succ_eq_capBits {i : BitVec 4} {k : WidthClass} (h : i.toNat < k.cap) :
    i + 1 = k.capBits ↔ i.toNat + 1 = k.cap := by
  have := cap_le k
  rw [← BitVec.toNat_inj, toNat_capBits, BitVec.toNat_add]
  simp; omega

theorem toNat_idx_succ {i : BitVec 4} {k : WidthClass} (h : i.toNat < k.cap) : (i + 1).toNat = i.toNat + 1 := by
  have := cap_le k
  rw [BitVec.toNat_add]; simp; omega

theorem decRestByte_last {b : Byte} {s : State} (h : s.dec.idx.toNat + 1 = s.dec.k.cap) :
    decRestByte b s = { s with dec := { s.dec with
      buf := setByteLane s.dec.buf s.dec.idx.toNat b, idx := s.dec.idx + 1, status := .ok, st := .resp } } := by
  exact if_pos ((idx_succ_eq_capBits (k := s.dec.k) (by omega)).2 h)

theorem decRestByte_more {b : Byte} {s : State} (h : s.dec.idx.toNat + 1 < s.dec.k.cap) :
    decRestByte b s = { s with dec := { s.dec with
      buf := setByteLane s.dec.buf s.dec.idx.toNat b, idx := s.dec.idx + 1 } } := by
  have : s.dec.idx + 1 ≠ s.dec.k.capBits := fun e => by
    have := (idx_succ_eq_capBits (k := s.dec.k) (by omega)).1 e; omega
  exact if_neg this

/-- From a decoder that wants `n + 1` further bytes, serving every pull ends in the response state with the result of
`decode`'s last two steps, the class kept and the source left as `decode` leaves it. -/
theorem decRestAll_decodeTail (m n : Nat) (s : State) (hn : n ≤ m) (hst : s.dec.st = .rest)
    (hidx : s.dec.idx.toNat + n + 1 = s.dec.k.cap) (hbuf : s.dec.buf.toNat < 2 ^ (8 * s.dec.idx.toNat)) :
    ∃ u, decRestAll (m + 1) s =
          { s with
            dec := u
            source := (decodeTail s.dec.k (n + 1) s.dec.idx.toNat s.dec.buf s.source).2 } ∧
      u.st = .resp ∧ u.k = s.dec.k ∧
      u.response = (decodeTail s.dec.k (n + 1) s.dec.idx.toNat s.dec.buf s.source).1.response := by
  induction n generalizing m s with
  | zero =>
    rw [decRestAll_succ hst]
    rcases hs : nextAnswer s.source with ⟨a, src⟩
    cases a with
    | exhausted =>
      rw [decRestAll_stop (by simp [hs])]
      exact ⟨{ s.dec with status := .trunc, st := .resp }, by simp [State.srcPull, State.decFinish, decodeTail, hs], rfl, rfl,
        by simp [DecUnit.response, DecodeResult.response, decodeTail, hs]⟩
    | byte b =>
      simp only [State.srcPull, hs, decRest_byte]
      rw [decRestByte_last (by simpa using hidx)]
      rw [decRestAll_stop (by simp)]
      exact ⟨{ s.dec with buf := setByteLane s.dec.buf s.dec.idx.toNat b, idx := s.dec.idx + 1, status := .ok, st := .resp },
        by simp [decodeTail, hs], rfl, rfl,
        by simp [DecUnit.response, DecodeResult.response, decodeTail, hs, setByteLane_eq_or b hbuf]⟩
  | succ n ih =>
    rw [decRestAll_succ hst]
    rcases hs : nextAnswer s.source with ⟨a, src⟩
    cases a with
    | exhausted =>
      rw [decRestAll_stop (by simp [hs])]
      exact ⟨{ s.dec with status := .trunc, st := .resp }, by simp [State.srcPull, State.decFinish, decodeTail, hs], rfl, rfl,
        by simp [DecUnit.response, DecodeResult.response, decodeTail, hs]⟩
    | byte b =>
      obtain ⟨m, rfl⟩ : ∃ j, m = j + 1 := ⟨m - 1, by omega⟩
      have hlt : s.dec.idx.toNat < s.dec.k.cap := by omega
      have hi := toNat_idx_succ hlt
      simp only [State.srcPull, hs, decRest_byte]
      rw [decRestByte_more (by simp; omega)]
      obtain ⟨u, h1, h2⟩ := ih m
        { s with source := src, dec := { s.dec with buf := setByteLane s.dec.buf s.dec.idx.toNat b, idx := s.dec.idx + 1 } }
        (by omega) hst (by simp only [hi]; omega) (by simp only [hi]; exact toNat_setByteLane_lt b hbuf)
      refine ⟨u, ?_, ?_⟩
      · rw [h1, show decodeTail s.dec.k (n + 1 + 1) s.dec.idx.toNat s.dec.buf s.source =
          decodeTail s.dec.k (n + 1) (s.dec.idx.toNat + 1) (s.dec.buf ||| (b.setWidth 64 <<< (8 * s.dec.idx.toNat))) src by
            rw [decodeTail, hs]]
        simp only [hi, setByteLane_eq_or b hbuf]
      · rw [show decodeTail s.dec.k (n + 1 + 1) s.dec.idx.toNat s.dec.buf s.source =
          decodeTail s.dec.k (n + 1) (s.dec.idx.toNat + 1) (s.dec.buf ||| (b.setWidth 64 <<< (8 * s.dec.idx.toNat))) src by
            rw [decodeTail, hs]]
        simpa only [hi, setByteLane_eq_or b hbuf] using h2

/-- A decoder that wants further bytes, on a source that has them: the record is complete. -/
theorem decRestAll_bytes (m : Nat) (b : Byte) (got : List Byte) (left : List Answer) (s : State) (hm : got.length ≤ m)
    (hst : s.dec.st = .rest) (hidx : s.dec.idx.toNat + got.length + 1 = s.dec.k.cap)
    (hbuf : s.dec.buf.toNat < 2 ^ (8 * s.dec.idx.toNat)) (hsrc : s.source = (b :: got).map .byte ++ left) :
    decRestAll (m + 1) s =
      { s with
        source := left
        dec := { st := .resp, buf := s.dec.buf ||| (assemble (b :: got) <<< (8 * s.dec.idx.toNat)), k := s.dec.k,
                 idx := s.dec.k.capBits, status := .ok } } := by
  induction got generalizing m b s with
  | nil =>
    have hl : s.dec.idx.toNat + 1 = s.dec.k.cap := by simpa using hidx
    rw [decRestAll_succ hst]
    simp only [State.srcPull, hsrc, List.map_cons, List.map_nil, List.cons_append, List.nil_append, nextAnswer_cons,
      decRest_byte]
    rw [decRestByte_last (by simpa using hl), decRestAll_stop (by simp)]
    simp only [setByteLane_eq_or b hbuf, assemble, (idx_succ_eq_capBits (k := s.dec.k) (by omega)).2 hl]
    simp
  | cons c got ih =>
    obtain ⟨m, rfl⟩ : ∃ j, m = j + 1 := ⟨m - 1, by simp at hm; omega⟩
    simp only [List.length_cons] at hidx hm
    have hi := toNat_idx_succ (i := s.dec.idx) (k := s.dec.k) (by omega)
    rw [decRestAll_succ hst]
    simp only [State.srcPull, hsrc, List.map_cons, List.cons_append, nextAnswer_cons, decRest_byte]
    rw [decRestByte_more (by simp only; omega)]
    rw [ih m c _ (by omega) (by exact hst) (by simp only [hi]; omega)
      (by simp only [hi]; exact toNat_setByteLane_lt b hbuf) (by simp)]
    simp only [hi, setByteLane_eq_or b hbuf, BitVec.or_assoc, assemble_cons_shift]

/-- A decoder that wants further bytes, on a source that runs out before it has them all: TRUNC. -/
theorem decRestAll_short (m : Nat) (got : List Byte) (left : List Answer) (s : State) (hm : got.length ≤ m)
    (hst : s.dec.st = .rest) (hidx : s.dec.idx.toNat + got.length < s.dec.k.cap)
    (hbuf : s.dec.buf.toNat < 2 ^ (8 * s.dec.idx.toNat)) (hsrc : s.source = got.map .byte ++ left)
    (hleft : (nextAnswer left).1 = .exhausted) :
    decRestAll (m + 1) s =
      { s with
        source := (nextAnswer left).2
        dec := { st := .resp, buf := s.dec.buf ||| (assemble got <<< (8 * s.dec.idx.toNat)), k := s.dec.k,
                 idx := BitVec.ofNat 4 (s.dec.idx.toNat + got.length), status := .trunc } } := by
  induction got generalizing m s with
  | nil =>
    rw [decRestAll_succ hst]
    simp only [State.srcPull, hsrc, List.map_nil, List.nil_append, hleft, decRest_exhausted]
    rw [decRestAll_stop (by simp)]
    simp [State.decFinish, assemble]
  | cons b got ih =>
    obtain ⟨m, rfl⟩ : ∃ j, m = j + 1 := ⟨m - 1, by simp at hm; omega⟩
    simp only [List.length_cons] at hidx hm
    have hi := toNat_idx_succ (i := s.dec.idx) (k := s.dec.k) (by omega)
    rw [decRestAll_succ hst]
    simp only [State.srcPull, hsrc, List.map_cons, List.cons_append, nextAnswer_cons, decRest_byte]
    rw [decRestByte_more (by simp only; omega)]
    rw [ih m _ (by omega) (by exact hst) (by simp only [hi]; omega)
      (by simp only [hi]; exact toNat_setByteLane_lt b hbuf) (by simp)]
    simp only [hi, setByteLane_eq_or b hbuf, BitVec.or_assoc, assemble_cons_shift, List.length_cons]
    rw [show s.dec.idx.toNat + 1 + got.length = s.dec.idx.toNat + (got.length + 1) by omega]

theorem setByteLane_zero (b : Byte) : setByteLane 0 0 b = b.setWidth 64 := by
  rw [setByteLane_eq_or (i := 0) b (by decide)]; simp

theorem byte_lt (b : Byte) : (b.setWidth 64).toNat < 2 ^ (8 * 1) := by
  have := b.isLt; simp; omega

/-- A whole `DEC` of class `k` on a source that has the rest of the record. -/
theorem decRun_bytes (k : WidthClass) (first : Byte) (got : List Byte) (left : List Answer) (s : State)
    (hlen : got.length + 1 = k.cap) (hsrc : s.source = got.map .byte ++ left) :
    decRun (some k) first s =
      { s with
        source := left
        dec := { st := .idle, buf := assemble (first :: got), k := k, idx := k.capBits, status := .ok }
        decRsps := s.decRsps ++ [{ status := .ok, value := payload k (assemble (first :: got)) }] } := by
  cases got with
  | nil =>
    have hk : k = .one := by cases k <;> simp_all
    subst hk
    simp only [decRun, decFirstAs, cap_one, if_true]
    rw [decRestAll_stop (by simp)]
    simp only [List.map_nil, List.nil_append] at hsrc
    simp [decRespond, decAccept, DecUnit.response, assemble, WidthClass.capBits, lut, ← hsrc,
      show setByteLane 0#64 0 first = first.setWidth 64 from setByteLane_zero first]
  | cons b got =>
    have hk : k.cap ≠ 1 := by simp at hlen; omega
    have h8 := cap_le k
    simp only [List.length_cons] at hlen
    simp only [decRun, decFirstAs, hk, if_false, decAccept, Config.bufBytes, setByteLane_zero]
    rw [decRestAll_bytes 6 b got left _ (by omega) rfl (by simp only; exact (by simpa [Nat.add_comm, Nat.add_assoc] using hlen))
      (byte_lt first) (by simpa using hsrc)]
    simp [decRespond, DecUnit.response, assemble]

/-- A whole `DEC` of class `k` on a source that runs out before the record is complete. -/
theorem decRun_short (k : WidthClass) (first : Byte) (got : List Byte) (left : List Answer) (s : State)
    (hlen : got.length + 1 < k.cap) (hsrc : s.source = got.map .byte ++ left)
    (hleft : (nextAnswer left).1 = .exhausted) :
    decRun (some k) first s =
      { s with
        source := (nextAnswer left).2
        dec := { st := .idle, buf := assemble (first :: got), k := k, idx := BitVec.ofNat 4 (got.length + 1),
                 status := .trunc }
        decRsps := s.decRsps ++ [{ status := .trunc, value := 0 }] } := by
  have hk : k.cap ≠ 1 := by omega
  have h8 := cap_le k
  simp only [decRun, decFirstAs, hk, if_false, decAccept, Config.bufBytes, setByteLane_zero]
  rw [decRestAll_short 6 got left _ (by omega) rfl (by simp only; exact (by simpa [Nat.add_comm] using hlen))
    (byte_lt first) (by simpa using hsrc) hleft]
  simp [decRespond, DecUnit.response, assemble, Nat.add_comm]

end Sys2Proof.Machine
end

