-- ==== Sys2Proof/Laws/Encoder.lean ====
section
/-! SUPPORT. The encoder: each transition and the whole operation, said once. -/

namespace Sys2Proof.Machine

@[simp] theorem encAcceptAs_none (v : Word) (s : State) : encAcceptAs none v s = s.raiseRange := rfl

@[simp] theorem encAcceptAs_some (k : WidthClass) (v : Word) (s : State) :
    encAcceptAs (some k) v s =
      { s with enc := { st := .emit, buf := tagged k v, cap := k.capBits, idx := 0, status := .ok } } := rfl

theorem encEmitAll_stop {n : Nat} {s : State} (h : s.enc.st ≠ .emit) : encEmitAll n s = s := by
  cases n with
  | zero => rfl
  | succ n => cases hs : s.enc.st <;> simp_all [encEmitAll]

theorem encEmitAll_succ {n : Nat} {s : State} (h : s.enc.st = .emit) :
    encEmitAll (n + 1) s = encEmitAll n (encEmit s) := by
  simp [encEmitAll, h]

/-- A whole `ENC` of class `k`: the record's bytes go to the sink, then the response with their number. -/
theorem encRun_some (k : WidthClass) (v : Word) (s : State) :
    encRun (some k) v s =
      { s with
        enc := { st := .idle, buf := tagged k v, cap := k.capBits, idx := k.capBits, status := .ok }
        sink := s.sink ++ lanes k.cap (tagged k v)
        encRsps := s.encRsps ++ [{ status := .ok, count := BitVec.ofNat 8 k.cap }] } := by
  cases k <;>
    simp [encRun, Config.bufBytes, encEmitAll, encEmit, State.sinkEmit, encRespond, EncUnit.response, EncUnit.sinkByte,
      lanes, WidthClass.capBits, lut, List.range_succ]

/-- A whole `ENC` out of range: nothing to the sink, then the response RANGE with count 0. -/
theorem encRun_none (v : Word) (s : State) :
    encRun none v s =
      { s with
        enc := { st := .idle, buf := 0, cap := 0, idx := 0, status := .range }
        encRsps := s.encRsps ++ [{ status := .range, count := 0 }] } := rfl

/-- An `ENC` operation always answers a next state: the whole run when the encoder is idle, the same state when not. -/
theorem encOperation_cases (k : Option WidthClass) (v : Word) (s : State) :
    (s.enc.st = .idle ∧ encOperation k v s = .next (encRun k v s)) ∨
      (s.enc.st ≠ .idle ∧ encOperation k v s = .next s) := by
  by_cases h : s.enc.st = .idle <;> simp [encOperation, EncUnit.reqReady, h]

/-- What the encoder's part of an edge can do: nothing, or the one transition its state allows. -/
theorem encEdge_cases (p : Pins) (s : State) :
    encEdge p s = s ∨
      (s.enc.st = .idle ∧ ∃ v, p.encReq = some v ∧ encEdge p s = encAccept v s) ∨
      (s.enc.st = .emit ∧ p.snkReady = true ∧ encEdge p s = encEmit s) ∨
      (s.enc.st = .resp ∧ p.encRspReady = true ∧ encEdge p s = encRespond s) := by
  cases hs : s.enc.st
  · cases hv : p.encReq <;> simp [encEdge, hs, hv]
  · cases hv : p.snkReady <;> simp [encEdge, hs, hv]
  · cases hv : p.encRspReady <;> simp [encEdge, hs, hv]

theorem encAccept_frame (v : Word) (s : State) :
    (encAccept v s).dec = s.dec ∧ (encAccept v s).source = s.source ∧ (encAccept v s).sink = s.sink ∧
      (encAccept v s).encRsps = s.encRsps ∧ (encAccept v s).decRsps = s.decRsps ∧
      (encAccept v s).sched = s.sched ∧ (encAccept v s).fresh = s.fresh := by
  cases h : select v <;> simp [encAccept, h]

/-- The encoder's part of an edge touches nothing of the decoder. -/
theorem encEdge_frame (p : Pins) (s : State) :
    (encEdge p s).dec = s.dec ∧ (encEdge p s).source = s.source ∧ (encEdge p s).decRsps = s.decRsps ∧
      (encEdge p s).sched = s.sched ∧ (encEdge p s).fresh = s.fresh := by
  rcases encEdge_cases p s with h | ⟨_, v, _, h⟩ | ⟨_, _, h⟩ | ⟨_, _, h⟩ <;> rw [h]
  · exact ⟨rfl, rfl, rfl, rfl, rfl⟩
  · obtain ⟨h1, h2, _, _, h5, h6, h7⟩ := encAccept_frame v s
    exact ⟨h1, h2, h5, h6, h7⟩
  · exact ⟨rfl, rfl, rfl, rfl, rfl⟩
  · exact ⟨rfl, rfl, rfl, rfl, rfl⟩

end Sys2Proof.Machine
end

