-- ==== Sys2Proof/Laws/PerInstr.lean ====
section
/-! SUPPORT. Statements for all operations, made per operation: the code of a well-formed operation fits its own row of
spec/opcode_table.json, mask and match (spec/30_encoding.md R96). -/

namespace Sys2Proof.Laws.TableRow

open Sys2Proof.Machine

/-- The code of a well-formed `i`, under the mask of `i`'s row, is the row's match. -/
def Statement (i : Instr) : Prop := i.wf = true → (encode i).bits &&& i.tableMask = i.tableMatch

theorem enc1 (v : Word) : Statement (.enc1 v) := by
  intro h
  have : v.toNat < 2 ^ 7 := by simp [Instr.wf] at h; omega
  have m : (0xFFFFFFFFFFFFFF80 : Nat) = 2 ^ 7 * 0x1FFFFFFFFFFFFFF := by norm_num
  simp only [encode, Code.bits, Instr.tableMask, Instr.tableMatch, m]
  exact mul_pow_and_eq_zero this

theorem enc2 (v : Word) : Statement (.enc2 v) := by
  intro h
  have : v.toNat < 2 ^ 14 := by simp [Instr.wf] at h; omega
  have m : (0xFFFFFFFFFFFFC000 : Nat) = 2 ^ 14 * 0x3FFFFFFFFFFFF := by norm_num
  simp only [encode, Code.bits, Instr.tableMask, Instr.tableMatch, m]
  exact mul_pow_and_eq_zero this

theorem enc4 (v : Word) : Statement (.enc4 v) := by
  intro h
  have : v.toNat < 2 ^ 29 := by simp [Instr.wf] at h; omega
  have m : (0xFFFFFFFFE0000000 : Nat) = 2 ^ 29 * 0x7FFFFFFFF := by norm_num
  simp only [encode, Code.bits, Instr.tableMask, Instr.tableMatch, m]
  exact mul_pow_and_eq_zero this

theorem enc8 (v : Word) : Statement (.enc8 v) := by
  intro h
  have : v.toNat < 2 ^ 61 := by simp [Instr.wf] at h; omega
  have m : (0xE000000000000000 : Nat) = 2 ^ 61 * 7 := by norm_num
  simp only [encode, Code.bits, Instr.tableMask, Instr.tableMatch, m]
  exact mul_pow_and_eq_zero this

theorem encErr (v : Word) : Statement (.encErr v) := fun _ => Nat.and_zero _

theorem dec1 (first : Byte) : Statement (.dec1 first) := by
  intro h
  simpa [Instr.wf, encode, Code.bits, Instr.tableMask, Instr.tableMatch] using congrArg BitVec.toNat (eq_of_beq h)

theorem dec2 (first : Byte) : Statement (.dec2 first) := by
  intro h
  simpa [Instr.wf, encode, Code.bits, Instr.tableMask, Instr.tableMatch] using congrArg BitVec.toNat (eq_of_beq h)

theorem dec4 (first : Byte) : Statement (.dec4 first) := by
  intro h
  simpa [Instr.wf, encode, Code.bits, Instr.tableMask, Instr.tableMatch] using congrArg BitVec.toNat (eq_of_beq h)

theorem dec8 (first : Byte) : Statement (.dec8 first) := by
  intro h
  simpa [Instr.wf, encode, Code.bits, Instr.tableMask, Instr.tableMatch] using congrArg BitVec.toNat (eq_of_beq h)

end Sys2Proof.Laws.TableRow
end

