-- ==== Sys2Proof/Laws/Step.lean ====
section
/-! SUPPORT. What a step can do, said once. -/

namespace Sys2Proof.Machine

theorem step_edge {p : Pins} {rest : List Event} {s : State} (h : s.sched = .edge p :: rest) :
    step s = .next (clockEdge p { s with sched := rest }) := by
  simp [step, fetch, h]

/-- An edge without reset, unit by unit: the encoder's fields are those of its own part, and so are the decoder's. -/
theorem clockEdge_run {p : Pins} (s : State) (h : p.rst = false) : clockEdge p s = decEdge p (encEdge p s) := by
  simp [clockEdge, h]

theorem clockEdge_reset {p : Pins} (s : State) (h : p.rst = true) : clockEdge p s = s.resetEdge := by
  simp [clockEdge, h]

/-- Every operation answers a next state: its own run, or the same state when its unit is busy. -/
theorem exec_cases (i : Instr) (s : State) :
    (∃ k v, exec i s = .next (encRun k v s) ∧ s.enc.st = .idle) ∨
      (∃ k b, exec i s = .next (decRun (some k) b s) ∧ s.dec.st = .idle) ∨ exec i s = .next s := by
  have e : ∀ k v, (∃ k' v', encOperation k v s = .next (encRun k' v' s) ∧ s.enc.st = .idle) ∨
      encOperation k v s = .next s := fun k v => by
    rcases encOperation_cases k v s with ⟨h, g⟩ | ⟨_, g⟩
    · exact .inl ⟨k, v, g, h⟩
    · exact .inr g
  have d : ∀ k b, (∃ k' b', decOperation k b s = .next (decRun (some k') b' s) ∧ s.dec.st = .idle) ∨
      decOperation k b s = .next s := fun k b => by
    rcases decOperation_cases k b s with ⟨h, g⟩ | ⟨_, g⟩
    · exact .inl ⟨k, b, g, h⟩
    · exact .inr g
  cases i with
  | enc1 v => exact (e _ v).elim .inl (fun h => .inr (.inr h))
  | enc2 v => exact (e _ v).elim .inl (fun h => .inr (.inr h))
  | enc4 v => exact (e _ v).elim .inl (fun h => .inr (.inr h))
  | enc8 v => exact (e _ v).elim .inl (fun h => .inr (.inr h))
  | encErr v => exact (e _ v).elim .inl (fun h => .inr (.inr h))
  | dec1 b => exact (d _ b).elim (fun h => .inr (.inl h)) (fun h => .inr (.inr h))
  | dec2 b => exact (d _ b).elim (fun h => .inr (.inl h)) (fun h => .inr (.inr h))
  | dec4 b => exact (d _ b).elim (fun h => .inr (.inl h)) (fun h => .inr (.inr h))
  | dec8 b => exact (d _ b).elim (fun h => .inr (.inl h)) (fun h => .inr (.inr h))

/-- A whole `DEC` of class `k` on any source: the rest of the record is there, or it runs out before. -/
theorem decRun_cases (k : WidthClass) (first : Byte) (s : State) :
    (∃ (got : List Byte) (left : List Answer), s.source = got.map .byte ++ left ∧ got.length + 1 = k.cap ∧
      decRun (some k) first s =
        { s with
          source := left
          dec := { st := .idle, buf := assemble (first :: got), k := k, idx := k.capBits, status := .ok }
          decRsps := s.decRsps ++ [{ status := .ok, value := payload k (assemble (first :: got)) }] }) ∨
    (∃ (got : List Byte) (left : List Answer), s.source = got.map .byte ++ left ∧ got.length + 1 < k.cap ∧
      (nextAnswer left).1 = .exhausted ∧
      decRun (some k) first s =
        { s with
          source := (nextAnswer left).2
          dec := { st := .idle, buf := assemble (first :: got), k := k, idx := BitVec.ofNat 4 (got.length + 1),
                   status := .trunc }
          decRsps := s.decRsps ++ [{ status := .trunc, value := 0 }] }) := by
  have hpos : 0 < k.cap := by cases k <;> decide
  rcases source_bytes_or_short (k.cap - 1) s.source with ⟨got, left, h1, h2⟩ | ⟨got, left, h1, h2, h3⟩
  · exact .inl ⟨got, left, h2, by omega, decRun_bytes k first got left s (by omega) h2⟩
  · exact .inr ⟨got, left, h2, by omega, h3, decRun_short k first got left s (by omega) h2 h3⟩

/-- A whole `DEC` on an empty source: TRUNC, the class register as it was. -/
theorem decRunEmpty_eq (s : State) :
    decRunEmpty s =
      { s with
        dec := { s.dec with st := .idle, buf := 0, idx := 0, status := .trunc }
        decRsps := s.decRsps ++ [{ status := .trunc, value := 0 }] } := by
  simp [decRunEmpty, decAccept, State.decFinish, decRespond, DecUnit.response]

/-- The InvalidTagError arm of the decoder is dead. -/
theorem decodeFirst_ok (b : Byte) : ∃ i, decodeFirst b = .ok i := by
  have : ∀ b : Byte, (match decodeFirst b with | .ok _ => true | .error _ => false) = true := by decide
  have := this b
  cases h : decodeFirst b with
  | ok i => exact ⟨i, rfl⟩
  | error e => simp [h] at this

/-- What a step can do: nothing, an edge, one operation of either unit, or a `DEC` on an empty source. Each is given in the
state `s1`, which is `s` without the event, and for a `DEC` without the answer its first pull took. -/
theorem step_cases {s t : State} (h : step s = .next t) :
    (s.sched = [] ∧ t = s) ∨
      (∃ p rest, s.sched = .edge p :: rest ∧ t = clockEdge p { s with sched := rest }) ∨
      (∃ v rest, s.sched = .encOp v :: rest ∧ exec (decodeRequest v) { s with sched := rest } = .next t) ∨
      (∃ rest, s.sched = .decOp :: rest ∧
        ((s.dec.st ≠ .idle ∧ t = { s with sched := rest }) ∨
          (s.dec.st = .idle ∧ (nextAnswer s.source).1 = .exhausted ∧
            t = decRunEmpty { s with sched := rest, source := (nextAnswer s.source).2 }) ∨
          (∃ b i left, s.dec.st = .idle ∧ s.source = .byte b :: left ∧ decodeFirst b = .ok i ∧
            exec i { s with sched := rest, source := left } = .next t))) := by
  cases hs : s.sched with
  | nil => left; simp only [step, fetch, hs] at h; exact ⟨rfl, by simpa using h.symm⟩
  | cons e rest =>
    right
    cases e with
    | edge p => left; rw [step_edge hs] at h; exact ⟨p, rest, rfl, by simpa using h.symm⟩
    | encOp v => right; left; simp only [step, fetch, hs] at h; exact ⟨v, rest, rfl, h⟩
    | decOp =>
      right; right
      refine ⟨rest, rfl, ?_⟩
      simp only [step, fetch, hs, fetchDec, DecUnit.reqReady] at h
      by_cases hi : s.dec.st = .idle
      · right
        match hsrc : s.source with
        | [] => left; simp [hi, hsrc, State.srcPull] at h; exact ⟨hi, by simp, by simpa using h.symm⟩
        | .exhausted :: left => left; simp [hi, hsrc, State.srcPull] at h; exact ⟨hi, by simp, by simpa using h.symm⟩
        | .byte b :: left =>
          right
          obtain ⟨i, hb⟩ := decodeFirst_ok b
          simp [hi, hsrc, State.srcPull, hb] at h
          exact ⟨b, i, left, hi, rfl, hb, h⟩
      · left; simp [hi] at h; exact ⟨hi, by simpa using h.symm⟩

end Sys2Proof.Machine
end

