-- ==== Sys2Proof/Tests/Slice0.lean ====
section
/-! SUPPORT. Tests whose expected results are those of spec/95_test_vectors.md (its vector is named in each comment), and
for every statement with hypotheses a witness that meets them all (`witness_<statement>`). -/

namespace Sys2Proof.Tests

open Sys2Proof Sys2Proof.Machine

/-- The next state of an outcome, if there is one. -/
def nextOf : Host.Outcome State Fault Refusal → Option State
  | .next s => some s
  | .fault _ => none
  | .refused _ => none

/-- Both units idle; the source will give `src`; the environment does `evs`. -/
def ready (src : List Byte) (evs : List Event) : State :=
  { State.reset with source := src.map .byte, sched := evs }

/-- What one step of one operation gives the environment: the sink, and the encoder's responses. -/
def encResult (v : Word) : Option (List Byte × List EncRsp) :=
  (nextOf (step (ready [] [.encOp v]))).map fun t => (t.sink, t.encRsps)

/-- What one step of one operation gives the environment: what is left in the source, and the decoder's responses. -/
def decResult (src : List Byte) : Option (List Answer × List DecRsp) :=
  (nextOf (step (ready src [.decOp]))).map fun t => (t.source, t.decRsps)

/-- The encoder in the middle of `ENC 300`, the decoder idle (95_test_vectors.md T1). -/
def emitting (idx : BitVec 4) (evs : List Event) : State :=
  { ready [] evs with enc := { st := .emit, buf := 0x4B2, cap := 2, idx := idx, status := .ok } }

/-- The encoder with the response of `ENC 300` on offer, its record on the sink (95_test_vectors.md T1). -/
def encAnswered (evs : List Event) : State :=
  { ready [] evs with
    enc := { st := .resp, buf := 0x4B2, cap := 2, idx := 2, status := .ok }, sink := [0xB2, 0x04] }

/-- The encoder idle, the decoder in the given registers. -/
def decoding (u : DecUnit) (src : List Answer) (evs : List Event) : State :=
  { State.reset with dec := u, source := src, sched := evs }

/-- An edge on which the environment does its half of every channel. -/
def allReady : Pins :=
  { rst := false, encReq := some 300, snkReady := true, encRspReady := true, decReqValid := true, srcValid := true,
    decRspReady := true }

/-- An edge on which the environment does nothing. -/
def nothingReady : Pins :=
  { rst := false, encReq := none, snkReady := false, encRspReady := false, decReqValid := false, srcValid := false,
    decRspReady := false }

/-! ### WellFormed: a term of each constructor that its check refuses, and one that it accepts -/

theorem test_wf_enc1 : (Instr.enc1 128).wf = false ∧ (Instr.enc1 127).wf = true := by decide
theorem test_wf_enc2 :
    (Instr.enc2 127).wf = false ∧ (Instr.enc2 16384).wf = false ∧ (Instr.enc2 128).wf = true ∧
      (Instr.enc2 16383).wf = true := by decide
theorem test_wf_enc4 :
    (Instr.enc4 16383).wf = false ∧ (Instr.enc4 536870912).wf = false ∧ (Instr.enc4 16384).wf = true ∧
      (Instr.enc4 536870911).wf = true := by decide
theorem test_wf_enc8 :
    (Instr.enc8 536870911).wf = false ∧ (Instr.enc8 0x2000000000000000).wf = false ∧
      (Instr.enc8 536870912).wf = true ∧ (Instr.enc8 0x1FFFFFFFFFFFFFFF).wf = true := by decide
theorem test_wf_encErr :
    (Instr.encErr 0x1FFFFFFFFFFFFFFF).wf = false ∧ (Instr.encErr 0x2000000000000000).wf = true := by decide
theorem test_wf_dec1 : (Instr.dec1 0x02).wf = false ∧ (Instr.dec1 0x07).wf = true := by decide
theorem test_wf_dec2 : (Instr.dec2 0x04).wf = false ∧ (Instr.dec2 0x06).wf = true := by decide
theorem test_wf_dec4 : (Instr.dec4 0x00).wf = false ∧ (Instr.dec4 0x0C).wf = true := by decide
theorem test_wf_dec8 : (Instr.dec8 0x04).wf = false ∧ (Instr.dec8 0xF8).wf = true := by decide

/-! ### The table and the decoder: values LS-1 to LS-14, bytes LM-1 to LM-19, and bit patterns written out from
40_width_class_lut.md R110 and 30_encoding.md R82 to R85 -/

theorem test_select_vectors :
    [(0#64), 127, 128, 16383, 16384, 2097151, 536870911, 536870912, 4294967295, 0x1FFFFFFFFFFFFFFF].map select =
      [some .one, some .one, some .two, some .two, some .four, some .four, some .four, some .eight, some .eight,
        some .eight] ∧
    [0x2000000000000000#64, 0x2000000000000005, 0x8000000000000000, 0xFFFFFFFFFFFFFFFF].map select =
      [none, none, none, none] := by decide

theorem test_match_low_bits :
    [0x00#8, 0x01, 0x02, 0x03, 0x04, 0x05, 0x06, 0x07].map matchTag =
      [some .eight, some .one, some .two, some .one, some .four, some .one, some .two, some .one] := by decide

theorem test_match_high_bits :
    [0x80#8, 0xF8, 0xFC, 0xFE, 0xFF, 0x0A, 0x0C, 0xAA, 0x55, 0xF0, 0x14].map matchTag =
      [some .eight, some .eight, some .four, some .two, some .one, some .two, some .four, some .two, some .one,
        some .eight, some .four] := by decide

theorem test_decode_enc1 : decode (.request 0b1111111#64) = .ok (.enc1 127) := by rfl
theorem test_decode_enc2 : decode (.request 0b10000000#64) = .ok (.enc2 128) := by rfl
theorem test_decode_enc4 : decode (.request 0b100000000000000#64) = .ok (.enc4 16384) := by rfl
theorem test_decode_enc8 : decode (.request 0x20000000#64) = .ok (.enc8 536870912) := by rfl
theorem test_decode_encErr : decode (.request 0x2000000000000000#64) = .ok (.encErr 0x2000000000000000) := by rfl
theorem test_decode_dec1 : decode (.record 0b11001001#8) = .ok (.dec1 0xC9) := by rfl
theorem test_decode_dec2 : decode (.record 0b10110010#8) = .ok (.dec2 0xB2) := by rfl
theorem test_decode_dec4 : decode (.record 0b11111100#8) = .ok (.dec4 0xFC) := by rfl
theorem test_decode_dec8 : decode (.record 0b01111000#8) = .ok (.dec8 0x78) := by rfl

/-- The rows of the table, as the host numbers their words: an `ENC` row's 64 bits, a `DEC` row's record bytes. -/
theorem test_decodeTableWord :
    decodeTableWord 64 100 = some (.enc1 100) ∧ decodeTableWord 64 300 = some (.enc2 300) ∧
    decodeTableWord 64 0x2000000000000005 = some (.encErr 0x2000000000000005) ∧
    decodeTableWord 8 0xC9 = some (.dec1 0xC9) ∧ decodeTableWord 16 0x04B2 = some (.dec2 0xB2) ∧
    decodeTableWord 32 0x007A1204 = some (.dec4 0x04) ∧ decodeTableWord 8 0x00 = some (.dec8 0x00) ∧
    decodeTableWord 72 0 = none := by decide

/-- A record placed by the host's word runs as the first operation after reset (D2-3). -/
theorem test_withFetchWord :
    (nextOf (step (State.reset.withFetchWord 16 0x04B2))).map (fun t => t.decRsps) =
      some [{ status := .ok, value := 300 }] ∧
    (nextOf (step (State.reset.withFetchWord 64 300))).map (fun t => t.sink) = some [0xB2, 0x04] := by decide

/-! ### Encoding: one step each -/

/-- E1-1, E1-10. -/
theorem test_enc1 :
    encResult 0 = some ([0x01], [⟨.ok, 1⟩]) ∧ encResult 127 = some ([0xFF], [⟨.ok, 1⟩]) := by decide
/-- E2-3, E2-5 (the corrected bytes of scenario 4). -/
theorem test_enc2 :
    encResult 300 = some ([0xB2, 0x04], [⟨.ok, 2⟩]) ∧ encResult 16383 = some ([0xFE, 0xFF], [⟨.ok, 2⟩]) := by decide
/-- E4-5, E4-8. -/
theorem test_enc4 :
    encResult 1000000 = some ([0x04, 0x12, 0x7A, 0x00], [⟨.ok, 4⟩]) ∧
    encResult 0x10000000 = some ([0x04, 0x00, 0x00, 0x80], [⟨.ok, 4⟩]) := by decide
/-- E8-5, E8-9. -/
theorem test_enc8 :
    encResult 0x0123456789ABCDEF = some ([0x78, 0x6F, 0x5E, 0x4D, 0x3C, 0x2B, 0x1A, 0x09], [⟨.ok, 8⟩]) ∧
    encResult 0x1FFFFFFFFFFFFFFF = some ([0xF8, 0xFF, 0xFF, 0xFF, 0xFF, 0xFF, 0xFF, 0xFF], [⟨.ok, 8⟩]) := by decide
/-- EE-1, EE-3. -/
theorem test_encErr :
    encResult 0x2000000000000000 = some ([], [⟨.range, 0⟩]) ∧
    encResult 0x2000000000000005 = some ([], [⟨.range, 0⟩]) := by decide

/-! ### Decoding: one step each -/

/-- D1-3, D1-9. -/
theorem test_dec1 :
    decResult [0x03] = some ([], [⟨.ok, 1⟩]) ∧ decResult [0xFF, 0xFF] = some ([.byte 0xFF], [⟨.ok, 127⟩]) := by decide
/-- D2-1, D2-7. -/
theorem test_dec2 :
    decResult [0x02, 0x02] = some ([], [⟨.ok, 128⟩]) ∧
    decResult [0xFE, 0xFF, 0xAA] = some ([.byte 0xAA], [⟨.ok, 16383⟩]) := by decide
/-- D4-3, D4-7. -/
theorem test_dec4 :
    decResult [0x04, 0x12, 0x7A, 0x00] = some ([], [⟨.ok, 1000000⟩]) ∧
    decResult [0x04, 0x00, 0x00, 0x80] = some ([], [⟨.ok, 0x10000000⟩]) := by decide
/-- D8-4, D8-5. -/
theorem test_dec8 :
    decResult [0x08, 0x01, 0x02, 0x03, 0x04, 0x05, 0x06, 0x07] = some ([], [⟨.ok, 0x00E0C0A080604021⟩]) ∧
    decResult [0, 0, 0, 0, 0, 0, 0, 0x80] = some ([], [⟨.ok, 0x1000000000000000⟩]) := by decide
/-- DT-1, DT-2, DT-8, DT-15. -/
theorem test_truncated :
    decResult [] = some ([], [⟨.trunc, 0⟩]) ∧ decResult [0x02] = some ([], [⟨.trunc, 0⟩]) ∧
    decResult [0xFC, 0xFF, 0xFF] = some ([], [⟨.trunc, 0⟩]) ∧
    decResult [0, 0, 0, 0, 0, 0, 0] = some ([], [⟨.trunc, 0⟩]) := by decide
/-- DN-2, DN-6, DN-7: non-minimal records are accepted. -/
theorem test_non_minimal :
    decResult [0xFE, 0x01] = some ([], [⟨.ok, 127⟩]) ∧
    decResult [0xFC, 0xFF, 0x01, 0x00] = some ([], [⟨.ok, 16383⟩]) ∧
    decResult [0, 0, 0, 0, 0, 0, 0, 0] = some ([], [⟨.ok, 0⟩]) := by decide

/-! ### One transfer: rows of the traces T1 and the like -/

/-- T1, row 1: E-ACCEPT. -/
theorem test_accept_300 :
    (nextOf (step (ready [] [.edge (requestEncode 300)]))).map (fun t => t.enc) =
      some { st := .emit, buf := 0x4B2, cap := 2, idx := 0, status := .ok } := by decide
/-- T1, rows 2 and 3: E-EMIT, not the last byte and the last. -/
theorem test_emit_300 :
    (nextOf (step (emitting 0 [.edge serveEncoder]))).map (fun t => (t.sink, t.enc.st)) = some ([0xB2], .emit) ∧
    (nextOf (step (emitting 1 [.edge serveEncoder]))).map (fun t => (t.sink, t.enc.st)) = some ([0x04], .resp) := by
  decide
/-- An edge with `rst = 1` abandons the operation; the bytes already handed over stay (70_reset_and_hazards.md R232). -/
theorem test_reset_edge :
    (nextOf (step { emitting 1 [.edge { allReady with rst := true }] with sink := [0xB2] })).map
      (fun t => (t.enc.st, t.dec.st, t.sink, t.encRsps)) = some (.idle, .idle, [0xB2], []) := by decide

/-! ### Witnesses: the hypotheses of each statement can be met -/

theorem witness_TableColumnsAreTiedAndOrdered :
    WidthClass.one.index.toNat < WidthClass.two.index.toNat ∧
    WidthClass.four.index.toNat < WidthClass.eight.index.toNat := by decide

/-- Each clause at both ends of its range. -/
theorem witness_ValueRangeSelectsTheClass :
    (0#64).toNat ≤ 127 ∧ (127#64).toNat ≤ 127 ∧
    128 ≤ (128#64).toNat ∧ (128#64).toNat ≤ 16383 ∧ (16383#64).toNat ≤ 16383 ∧
    16384 ≤ (16384#64).toNat ∧ (16384#64).toNat ≤ 536870911 ∧ (536870911#64).toNat ≤ 536870911 ∧
    536870912 ≤ (536870912#64).toNat ∧ (536870912#64).toNat ≤ 2305843009213693951 ∧
    (0x1FFFFFFFFFFFFFFF#64).toNat ≤ 2305843009213693951 ∧
    2305843009213693952 ≤ (0x2000000000000000#64).toNat ∧ 2305843009213693952 ≤ (0xFFFFFFFFFFFFFFFF#64).toNat := by
  decide

theorem witness_LowThreeBitsSelectTheFormatInAnyOrder :
    [WidthClass.eight, .four, .two, .one].Perm WidthClass.all := by decide

/-- One well-formed operation of each constructor. -/
theorem witness_DecodeOfEncodeIsTheOperation :
    (Instr.enc1 127).wf = true ∧ (Instr.enc2 128).wf = true ∧ (Instr.enc4 16384).wf = true ∧
    (Instr.enc8 0x1FFFFFFFFFFFFFFF).wf = true ∧ (Instr.encErr 0xFFFFFFFFFFFFFFFF).wf = true ∧
    (Instr.dec1 0xFF).wf = true ∧ (Instr.dec2 0xFE).wf = true ∧ (Instr.dec4 0xFC).wf = true ∧
    (Instr.dec8 0xF8).wf = true := by decide

theorem witness_OpcodeTableRowsAreFirstFit :
    0x07#8 &&& 0x01#8 = 0x01#8 ∧ 0x06#8 &&& 0x03#8 = 0x02#8 ∧ 0xFC#8 &&& 0x07#8 = 0x04#8 ∧
    0xF8#8 &&& 0x07#8 = 0x00#8 := by decide

theorem witness_EncodeOneByteRecord : (127#64).toNat ≤ 127 ∧ (ready [] []).enc.st = .idle := by decide
theorem witness_EncodeTwoByteRecord :
    128 ≤ (128#64).toNat ∧ (128#64).toNat ≤ 16383 ∧ (ready [] []).enc.st = .idle := by decide
theorem witness_EncodeFourByteRecord :
    16384 ≤ (536870911#64).toNat ∧ (536870911#64).toNat ≤ 536870911 ∧ (ready [] []).enc.st = .idle := by decide
theorem witness_EncodeEightByteRecord :
    536870912 ≤ (536870912#64).toNat ∧ (536870912#64).toNat ≤ 2305843009213693951 ∧
      (ready [] []).enc.st = .idle := by decide
theorem witness_EncodeOutOfRangeIsRangeError :
    2305843009213693952 ≤ (0x2000000000000000#64).toNat ∧ (ready [] []).enc.st = .idle := by decide
theorem witness_DecodeOneByteRecord : 0xFF#8 &&& 0x01#8 = 0x01#8 ∧ (ready [] []).dec.st = .idle := by decide
theorem witness_DecodeTwoByteRecord :
    0xB2#8 &&& 0x03#8 = 0x02#8 ∧ (ready [0x04] []).dec.st = .idle ∧ (ready [0x04] []).source = .byte 0x04 :: [] := by
  decide
theorem witness_DecodeFourByteRecord :
    0x04#8 &&& 0x07#8 = 0x04#8 ∧ (ready [0x12, 0x7A, 0x00] []).dec.st = .idle ∧
      (ready [0x12, 0x7A, 0x00] []).source = .byte 0x12 :: .byte 0x7A :: .byte 0x00 :: [] := by decide
theorem witness_DecodeEightByteRecord :
    0x78#8 &&& 0x07#8 = 0x00#8 ∧ (ready [0x6F, 0x5E, 0x4D, 0x3C, 0x2B, 0x1A, 0x09, 0xAA] []).dec.st = .idle ∧
      (ready [0x6F, 0x5E, 0x4D, 0x3C, 0x2B, 0x1A, 0x09, 0xAA] []).source =
        .byte 0x6F :: .byte 0x5E :: .byte 0x4D :: .byte 0x3C :: .byte 0x2B :: .byte 0x1A :: .byte 0x09 ::
          [.byte 0xAA] := by decide

/-- `DEC.8` with its most bytes and the end of the list; `DEC.2` with none and an `Exhausted` in the middle. -/
theorem witness_TruncatedRecordIsTruncatedInputError :
    ((Instr.dec8 0x00 = .dec8 0x00 ∧ WidthClass.eight = .eight) ∧ (Instr.dec8 0x00).wf = true ∧
      (ready [0, 0, 0, 0, 0, 0] []).dec.st = .idle ∧ [0#8, 0, 0, 0, 0, 0].length + 1 < WidthClass.eight.cap ∧
      (ready [0, 0, 0, 0, 0, 0] []).source = [0#8, 0, 0, 0, 0, 0].map .byte ∧ ([] : List Answer) = []) ∧
    ((Instr.dec4 0xFC = .dec4 0xFC ∧ WidthClass.four = .four) ∧ (Instr.dec4 0xFC).wf = true ∧
      (ready [0xFF, 0xFF] []).dec.st = .idle ∧ [0xFF#8, 0xFF].length + 1 < WidthClass.four.cap ∧
      (ready [0xFF, 0xFF] []).source = [0xFF#8, 0xFF].map .byte) ∧
    ((Instr.dec2 0x06 = .dec2 0x06 ∧ WidthClass.two = .two) ∧ (Instr.dec2 0x06).wf = true ∧
      { State.reset with source := [.exhausted, .byte 1] }.dec.st = .idle ∧
      ([] : List Byte).length + 1 < WidthClass.two.cap ∧
      { State.reset with source := [.exhausted, .byte 1] }.source = ([] : List Byte).map .byte ++ .exhausted :: [.byte 1]) := by
  decide

theorem witness_EmptySourceIsTruncatedInputError :
    ((ready [] [.decOp]).dec.st = .idle ∧ (ready [] [.decOp]).sched = .decOp :: [] ∧ (ready [] [.decOp]).source = []) ∧
    { ready [] [.decOp] with source := [.exhausted, .byte 1] }.dec.st = .idle ∧
    { ready [] [.decOp] with source := [.exhausted, .byte 1] }.sched = .decOp :: [] ∧
    { ready [] [.decOp] with source := [.exhausted, .byte 1] }.source = .exhausted :: [.byte 1] := by decide

theorem witness_BusyUnitDoesNotAccept :
    (emitting 0 [.encOp 7]).enc.st ≠ .idle ∧ (emitting 0 [.encOp 7]).sched = .encOp 7 :: [] ∧
    (encAnswered [.encOp 7]).enc.st ≠ .idle ∧ (encAnswered [.encOp 7]).sched = .encOp 7 :: [] ∧
    (decoding ⟨.first, 0, .one, 0, .ok⟩ [] [.decOp]).dec.st ≠ .idle ∧
    (decoding ⟨.resp, 0xFF, .one, 1, .ok⟩ [] [.decOp]).dec.st ≠ .idle ∧
    (decoding ⟨.first, 0, .one, 0, .ok⟩ [] [.decOp]).sched = .decOp :: [] := by decide

theorem witness_StepRunsTheDecodedOperation :
    (ready [] [.encOp 300]).sched = .encOp 300 :: [] ∧ decode (.request 300) = .ok (.enc2 300) ∧
    (ready [0xB2, 0x04] [.decOp]).dec.st = .idle ∧ (ready [0xB2, 0x04] [.decOp]).sched = .decOp :: [] ∧
    (ready [0xB2, 0x04] [.decOp]).source = .byte 0xB2 :: [.byte 0x04] ∧ decode (.record 0xB2) = .ok (.dec2 0xB2) :=
  ⟨rfl, rfl, rfl, rfl, rfl, rfl⟩

/-- A value in range and one out of range. -/
theorem witness_EncoderAcceptsARequest :
    (ready [] [.edge allReady]).sched = .edge allReady :: [] ∧ allReady.rst = false ∧
    (ready [] [.edge allReady]).enc.st = .idle ∧ allReady.encReq = some 300 ∧ select 300 = some .two ∧
    (requestEncode 0x2000000000000000).rst = false ∧
    (requestEncode 0x2000000000000000).encReq = some 0x2000000000000000 ∧ select 0x2000000000000000 = none := by decide

/-- Not the last byte, and the last byte. -/
theorem witness_EncoderEmitsAByte :
    (emitting 0 [.edge allReady]).sched = .edge allReady :: [] ∧ allReady.rst = false ∧
    (emitting 0 [.edge allReady]).enc.st = .emit ∧ allReady.snkReady = true ∧
    (emitting 0 []).enc.idx + 1 ≠ (emitting 0 []).enc.cap ∧ (emitting 1 []).enc.idx + 1 = (emitting 1 []).enc.cap := by
  decide

theorem witness_EncoderResponds :
    (encAnswered [.edge allReady]).sched = .edge allReady :: [] ∧ allReady.rst = false ∧
    (encAnswered [.edge allReady]).enc.st = .resp ∧ allReady.encRspReady = true := by decide

theorem witness_DecoderAcceptsARequest :
    (ready [] [.edge allReady]).sched = .edge allReady :: [] ∧ allReady.rst = false ∧
    (ready [] [.edge allReady]).dec.st = .idle ∧ allReady.decReqValid = true := by decide

/-- A byte of the 1-byte class, one of a longer class, both forms of no byte. -/
theorem witness_DecoderTakesTheFirstByte :
    (decoding ⟨.first, 0, .one, 0, .ok⟩ [.byte 0xC9] [.edge allReady]).sched = .edge allReady :: [] ∧
    allReady.rst = false ∧ (decoding ⟨.first, 0, .one, 0, .ok⟩ [.byte 0xC9] [.edge allReady]).dec.st = .first ∧
    allReady.srcValid = true ∧
    (decoding ⟨.first, 0, .one, 0, .ok⟩ [.byte 0xC9] [.edge allReady]).source = .byte 0xC9 :: [] ∧
    matchTag 0xC9 = some .one ∧ WidthClass.one.cap = 1 ∧ matchTag 0xB2 = some .two ∧ WidthClass.two.cap ≠ 1 ∧
    (decoding ⟨.first, 0, .one, 0, .ok⟩ [] []).source = [] ∧
    (decoding ⟨.first, 0, .one, 0, .ok⟩ [.exhausted, .byte 1] []).source = .exhausted :: [.byte 1] := by decide

/-- The last byte of a record (index 7 of eight), one in the middle, both forms of no byte. -/
theorem witness_DecoderTakesAFurtherByte :
    (decoding ⟨.rest, 0x78, .eight, 7, .ok⟩ [.byte 0x09] [.edge allReady]).sched = .edge allReady :: [] ∧
    allReady.rst = false ∧ (decoding ⟨.rest, 0x78, .eight, 7, .ok⟩ [.byte 0x09] [.edge allReady]).dec.st = .rest ∧
    allReady.srcValid = true ∧
    (decoding ⟨.rest, 0x78, .eight, 7, .ok⟩ [.byte 0x09] []).dec.idx.toNat <
      (decoding ⟨.rest, 0x78, .eight, 7, .ok⟩ [.byte 0x09] []).dec.k.cap ∧
    (decoding ⟨.rest, 0x78, .eight, 7, .ok⟩ [.byte 0x09] []).dec.idx.toNat + 1 =
      (decoding ⟨.rest, 0x78, .eight, 7, .ok⟩ [.byte 0x09] []).dec.k.cap ∧
    (decoding ⟨.rest, 0x04, .four, 1, .ok⟩ [.byte 0x12] []).dec.idx.toNat <
      (decoding ⟨.rest, 0x04, .four, 1, .ok⟩ [.byte 0x12] []).dec.k.cap ∧
    (decoding ⟨.rest, 0x04, .four, 1, .ok⟩ [.byte 0x12] []).dec.idx.toNat + 1 ≠
      (decoding ⟨.rest, 0x04, .four, 1, .ok⟩ [.byte 0x12] []).dec.k.cap ∧
    (decoding ⟨.rest, 0x04, .four, 1, .ok⟩ [] []).source = [] ∧
    (decoding ⟨.rest, 0x04, .four, 1, .ok⟩ [.exhausted] []).source = .exhausted :: [] := by decide

/-- A response with `OK` and one with `TRUNC`. -/
theorem witness_DecoderResponds :
    (decoding ⟨.resp, 0xC9, .one, 1, .ok⟩ [] [.edge allReady]).sched = .edge allReady :: [] ∧ allReady.rst = false ∧
    (decoding ⟨.resp, 0xC9, .one, 1, .ok⟩ [] [.edge allReady]).dec.st = .resp ∧ allReady.decRspReady = true ∧
    (decoding ⟨.resp, 0xC9, .one, 1, .ok⟩ [] []).dec.status = .ok ∧
    (decoding ⟨.resp, 0x02, .two, 1, .trunc⟩ [] []).dec.st = .resp ∧
    (decoding ⟨.resp, 0x02, .two, 1, .trunc⟩ [] []).dec.status ≠ .ok := by decide

theorem witness_InvalidTagArmEndsTheOperation :
    (decoding ⟨.first, 0, .one, 0, .ok⟩ [.byte 0x00] []).dec.buf = 0#64 := by decide

/-- An edge without a handshake, at an encoder that offers a byte and a decoder that wants one. -/
theorem witness_NoHandshakeNoTransfer :
    (emitting 0 [.edge nothingReady]).sched = .edge nothingReady :: [] ∧ nothingReady.rst = false ∧
    ¬ (nothingReady.encReq.isSome = true ∧ (outputs (emitting 0 [])).encReqReady = true) ∧
    ¬ ((outputs (emitting 0 [])).snkValid = true ∧ nothingReady.snkReady = true) ∧
    ¬ ((outputs (emitting 0 [])).encRspValid = true ∧ nothingReady.encRspReady = true) ∧
    (outputs (emitting 0 [])).snkValid = true ∧
    (outputs (decoding ⟨.first, 0, .one, 0, .ok⟩ [] [])).srcReady = true ∧
    ¬ (nothingReady.decReqValid = true ∧ (outputs (decoding ⟨.first, 0, .one, 0, .ok⟩ [] [])).decReqReady = true) ∧
    ¬ (nothingReady.srcValid = true ∧ (outputs (decoding ⟨.first, 0, .one, 0, .ok⟩ [] [])).srcReady = true) ∧
    ¬ ((outputs (decoding ⟨.first, 0, .one, 0, .ok⟩ [] [])).decRspValid = true ∧ nothingReady.decRspReady = true) := by
  decide

theorem witness_OutputsAreFunctionsOfTheState :
    (emitting 1 []).enc.st = .emit ∧ (encAnswered []).enc.st = .resp ∧
    (decoding ⟨.resp, 0xC9, .one, 1, .ok⟩ [] []).dec.st = .resp ∧
    (decoding ⟨.first, 0, .one, 0, .ok⟩ [] []).dec.st = .first ∧
    (decoding ⟨.rest, 0x02, .two, 1, .ok⟩ [] []).dec.st = .rest := by decide

theorem witness_ResetEdgeMakesBothUnitsIdle :
    (emitting 1 [.edge { allReady with rst := true }]).sched = .edge { allReady with rst := true } :: [] ∧
    { allReady with rst := true }.rst = true := by decide

/-- The two machines differ in the decoder; then they differ in the encoder. -/
theorem witness_NeitherUnitDependsOnTheOther :
    (emitting 0 [.edge serveEncoder]).sched = [serveEncoder].map .edge ++ [] ∧
    ({ decoding ⟨.first, 0, .one, 0, .ok⟩ [.byte 1] [.edge { serveEncoder with srcValid := true }] with
        enc := (emitting 0 []).enc }).sched = [{ serveEncoder with srcValid := true }].map .edge ++ [] ∧
    List.Forall₂ (fun p q : Pins => p.rst = q.rst ∧ p.encReq = q.encReq ∧ p.snkReady = q.snkReady ∧
      p.encRspReady = q.encRspReady) [serveEncoder] [{ serveEncoder with srcValid := true }] ∧
    List.Forall₂ (fun p q : Pins => p.rst = q.rst ∧ p.decReqValid = q.decReqValid ∧ p.srcValid = q.srcValid ∧
      p.decRspReady = q.decRspReady) [serveDecoder] [{ serveDecoder with snkReady := true }] ∧
    (emitting 0 []).dec = (encAnswered []).dec ∧ (emitting 0 []).fresh = (encAnswered []).fresh ∧
    (emitting 0 []).source = (encAnswered []).source ∧ (emitting 0 []).decRsps = (encAnswered []).decRsps :=
  ⟨rfl, rfl, .cons (by decide) .nil, .cons (by decide) .nil, rfl, rfl, rfl, rfl⟩

theorem witness_UnitsMayTransferInEitherOrder : allReady.rst = false := by decide

theorem witness_StaleRegistersReachNoPort :
    Instr.enc2 300 ∈ [Instr.enc1 300, .enc2 300, .enc4 300, .enc8 300, .encErr 300] ∧
    Instr.dec2 0xB2 ∈ [Instr.dec1 0xB2, .dec2 0xB2, .dec4 0xB2, .dec8 0xB2] ∧
    (ready [] [.decOp]).enc.st = .idle ∧ (⟨.idle, 0x4B2, 2, 2, .range⟩ : EncUnit).st = .idle ∧
    (ready [] [.decOp]).dec.st = .idle ∧ (⟨.idle, 0x04B2, .two, 2, .trunc⟩ : DecUnit).st = .idle ∧
    (ready [] [.decOp]).source = [] ∧ (ready [] [.decOp]).sched = .decOp :: [] := by decide

/-- States in the middle of an operation, at which a transfer of each unit is due. -/
theorem witness_EveryStepKeepsTheRegisterInvariants :
    (RegInv (emitting 1 [.edge allReady]) ∧ ∃ t, step (emitting 1 [.edge allReady]) = .next t) ∧
    (RegInv (encAnswered [.edge allReady]) ∧ ∃ t, step (encAnswered [.edge allReady]) = .next t) ∧
    (RegInv (decoding ⟨.first, 0, .eight, 0, .trunc⟩ [.byte 0xB2] [.edge allReady]) ∧
      ∃ t, step (decoding ⟨.first, 0, .eight, 0, .trunc⟩ [.byte 0xB2] [.edge allReady]) = .next t) ∧
    (RegInv (decoding ⟨.rest, 0x12_04, .four, 2, .ok⟩ [.byte 0x7A] [.edge allReady]) ∧
      ∃ t, step (decoding ⟨.rest, 0x12_04, .four, 2, .ok⟩ [.byte 0x7A] [.edge allReady]) = .next t) ∧
    RegInv (decoding ⟨.resp, 0xC9, .one, 1, .ok⟩ [] [.edge allReady]) ∧
      ∃ t, step (decoding ⟨.resp, 0xC9, .one, 1, .ok⟩ [] [.edge allReady]) = .next t :=
  ⟨⟨by decide, _, rfl⟩, ⟨by decide, _, rfl⟩, ⟨by decide, _, rfl⟩, ⟨by decide, _, rfl⟩, by decide, _, rfl⟩

theorem witness_EveryStepKeepsResponsesLegal :
    RegInv (encAnswered [.edge allReady]) ∧ ResponsesLegal { encAnswered [.edge allReady] with encRsps := [⟨.range, 0⟩] } ∧
    RegInv { encAnswered [.edge allReady] with encRsps := [⟨.range, 0⟩] } ∧
    ∃ t, step { encAnswered [.edge allReady] with encRsps := [⟨.range, 0⟩] } = .next t :=
  ⟨by decide, by decide, by decide, _, rfl⟩

theorem witness_EveryStepKeepsTheRecordOnTheSink :
    RegInv { emitting 1 [.edge allReady] with sink := [0x01, 0xB2] } ∧
    SinkHoldsRecord { emitting 1 [.edge allReady] with sink := [0x01, 0xB2] } ∧
    ∃ t, step { emitting 1 [.edge allReady] with sink := [0x01, 0xB2] } = .next t :=
  ⟨by decide, fun _ => ⟨[0x01], by decide⟩, _, rfl⟩

theorem witness_StreamsOnlyMoveForward : ∃ t, step (emitting 1 [.edge allReady]) = .next t := ⟨_, rfl⟩

theorem witness_TaggedRecordHoldsTagAndValue :
    (0#64).toNat < 2 ^ WidthClass.one.pb ∧ (127#64).toNat < 2 ^ WidthClass.one.pb ∧
    (0x1FFFFFFFFFFFFFFF#64).toNat < 2 ^ WidthClass.eight.pb := by decide

/-- A bit of the tag (byte 0, bit 0) and the record's last bit (byte 1, bit 7). -/
theorem witness_RecordBytesAreTagThenValueBits :
    (300#64).toNat < 2 ^ WidthClass.two.pb ∧
    (lanes WidthClass.two.cap (tagged .two 300))[0]? = some 0xB2 ∧
    (lanes WidthClass.two.cap (tagged .two 300))[1]? = some 0x04 ∧ 0 < 8 ∧ 7 < 8 ∧
    8 * 0 + 0 < WidthClass.two.ts ∧ ¬ 8 * 1 + 7 < WidthClass.two.ts := by decide

theorem witness_EncodeOperationIsEncode :
    (ready [] [.encOp 300]).enc.st = .idle ∧ (ready [] [.encOp 300]).sched = .encOp 300 :: [] := by decide
theorem witness_DecodeOperationIsDecode :
    (ready [0xB2, 0x04] [.decOp]).dec.st = .idle ∧ (ready [0xB2, 0x04] [.decOp]).sched = .decOp :: [] := by decide

theorem witness_EncodedRecordIsMinimal :
    encodeRecord 127 = .ok [0xFF] ∧ (127#64).toNat < 2 ^ WidthClass.one.pb ∧
    (127#64).toNat < 2 ^ WidthClass.eight.pb := by decide

theorem witness_EncodingIsInjectiveAndPrefixFree :
    encodeRecord 300 = .ok [0xB2, 0x04] ∧ encodeRecord 300 = .ok ([0xB2, 0x04] ++ []) := by decide

theorem witness_RecordOfAnyClassDecodesToItsValue :
    (127#64).toNat < 2 ^ WidthClass.one.pb ∧ (0#64).toNat < 2 ^ WidthClass.two.pb ∧
    (16383#64).toNat < 2 ^ WidthClass.four.pb ∧ (0x1FFFFFFFFFFFFFFF#64).toNat < 2 ^ WidthClass.eight.pb := by decide

theorem witness_DecodedRecordHasTheLengthOfItsFirstByte :
    decodeRecord [.byte 0xFE, .byte 0x01, .exhausted, .byte 7] = (.ok 127, [.exhausted, .byte 7]) := by decide

theorem witness_TruncationNeverReadsBeyondTheSource :
    matchTag 0x02 = some .two ∧ ([] : List Byte).length + 1 < WidthClass.two.cap ∧
    matchTag 0x00 = some .eight ∧ [0#8, 0, 0, 0, 0, 0].length + 1 < WidthClass.eight.cap := by decide

theorem witness_DecodeAfterEncodeGivesTheValueBack :
    (0x1FFFFFFFFFFFFFFF#64).toNat < 2 ^ 61 ∧
    (ready [] [.encOp 0x1FFFFFFFFFFFFFFF, .decOp]).enc.st = .idle ∧
    (ready [] [.encOp 0x1FFFFFFFFFFFFFFF, .decOp]).dec.st = .idle ∧
    (ready [] [.encOp 0x1FFFFFFFFFFFFFFF, .decOp]).sched = .encOp 0x1FFFFFFFFFFFFFFF :: .decOp :: [] := by decide

theorem witness_TransferByTransferIsTheOperation :
    (ready [0xB2, 0x04] []).enc.st = .idle ∧ (ready [0xB2, 0x04] []).dec.st = .idle := by decide

/-- A stall, then a byte taken. -/
theorem witness_EncodeIsTheSameUnderAnyStalls :
    (ready [] []).enc.st = .idle ∧ ∀ p ∈ [nothingReady, serveEncoder], p.rst = false ∧ p.encReq = none := by decide

theorem witness_EveryOperationEndsWithinTenTransfers :
    RegInv (emitting 0 ((List.replicate 9 serveEncoder).map .edge)) ∧ (List.replicate 9 serveEncoder).length = 9 ∧
    (∀ p ∈ List.replicate 9 serveEncoder,
      p.rst = false ∧ p.encReq = none ∧ p.snkReady = true ∧ p.encRspReady = true) ∧
    (emitting 0 ((List.replicate 9 serveEncoder).map .edge)).sched =
      (List.replicate 9 serveEncoder).map .edge ++ [] ∧
    RegInv (decoding ⟨.first, 0, .one, 0, .ok⟩ [] ((List.replicate 9 serveDecoder).map .edge)) ∧
    (∀ p ∈ List.replicate 9 serveDecoder,
      p.rst = false ∧ p.decReqValid = false ∧ p.srcValid = true ∧ p.decRspReady = true) ∧
    (decoding ⟨.first, 0, .one, 0, .ok⟩ [] ((List.replicate 9 serveDecoder).map .edge)).sched =
      (List.replicate 9 serveDecoder).map .edge ++ [] :=
  ⟨by decide, by decide, by decide, by decide, by decide, by decide, by decide⟩

theorem witness_SinkIsTheConcatenationOfTheRecords : (ready [] []).enc.st = .idle := by decide

theorem witness_BackToBackRecordsDecodeInOrder :
    (∀ v ∈ [300#64, 0#64], v.toNat < 2 ^ 61) ∧ (ready [0xB2, 0x04, 0x01, 0xFF] []).dec.st = .idle ∧
    (ready [0xB2, 0x04, 0x01, 0xFF] []).source =
      ([300#64, 0#64].flatMap fun v => (encodeRecord v).bytes).map .byte ++ [.byte 0xFF] :=
  ⟨by simp, by decide, by decide⟩

end Sys2Proof.Tests
end

namespace Sys2Proof.Machine

/-! ### The two units apart (spec/10_state.md R20, spec/20_memory.md R63)

Neither unit's part of a state is read by the other unit's part of an edge, so two states that agree on one unit's part
agree on it after any edges with the same pins of that unit. -/

/-- Two states agree on the encoder's part: its registers, the sink, its responses, and the counter of free values, which
decides what a reset edge leaves in the registers. -/
structure EncAgree (s t : State) : Prop where
  enc : s.enc = t.enc
  sink : s.sink = t.sink
  encRsps : s.encRsps = t.encRsps
  fresh : s.fresh = t.fresh

/-- Two states agree on the decoder's part. -/
structure DecAgree (s t : State) : Prop where
  dec : s.dec = t.dec
  source : s.source = t.source
  decRsps : s.decRsps = t.decRsps
  fresh : s.fresh = t.fresh

/-- The environment's half of the encoder's channels, and `rst`, are the same. -/
abbrev SameEncPins (p q : Pins) : Prop :=
  p.rst = q.rst ∧ p.encReq = q.encReq ∧ p.snkReady = q.snkReady ∧ p.encRspReady = q.encRspReady

/-- The environment's half of the decoder's channels, and `rst`, are the same. -/
abbrev SameDecPins (p q : Pins) : Prop :=
  p.rst = q.rst ∧ p.decReqValid = q.decReqValid ∧ p.srcValid = q.srcValid ∧ p.decRspReady = q.decRspReady

/-! #### The encoder's part -/

theorem EncAgree.encAccept {s t : State} (h : EncAgree s t) (v : Word) :
    EncAgree (encAccept v s) (encAccept v t) := by
  obtain ⟨_, sinkEq, rspsEq, freshEq⟩ := h
  cases hk : select v <;> constructor <;> simp [Machine.encAccept, hk, sinkEq, rspsEq, freshEq]

theorem EncAgree.encEmit {s t : State} (h : EncAgree s t) : EncAgree (encEmit s) (encEmit t) := by
  obtain ⟨encEq, sinkEq, rspsEq, freshEq⟩ := h
  constructor <;> simp [encEq, sinkEq, rspsEq, freshEq]

theorem EncAgree.encRespond {s t : State} (h : EncAgree s t) : EncAgree (encRespond s) (encRespond t) := by
  obtain ⟨encEq, sinkEq, rspsEq, freshEq⟩ := h
  constructor <;> simp [encEq, sinkEq, rspsEq, freshEq]

theorem EncAgree.encEdge {p q : Pins} {s t : State} (hpq : SameEncPins p q) (h : EncAgree s t) :
    EncAgree (encEdge p s) (encEdge q t) := by
  obtain ⟨_, reqEq, sinkEq, rspEq⟩ := hpq
  simp only [Machine.encEdge, h.enc, reqEq, sinkEq, rspEq]
  cases t.enc.st with
  | idle =>
    cases q.encReq with
    | none => exact h
    | some v => exact h.encAccept v
  | emit => cases q.snkReady <;> [exact h; exact h.encEmit]
  | resp => cases q.encRspReady <;> [exact h; exact h.encRespond]

/-- The decoder's part of an edge touches nothing of the encoder's. -/
theorem EncAgree.decEdge {s t : State} (h : EncAgree s t) (p q : Pins) : EncAgree (decEdge p s) (decEdge q t) := by
  obtain ⟨enc₁, sink₁, rsps₁, _, fresh₁⟩ := decEdge_frame p s
  obtain ⟨enc₂, sink₂, rsps₂, _, fresh₂⟩ := decEdge_frame q t
  exact ⟨by rw [enc₁, enc₂, h.enc], by rw [sink₁, sink₂, h.sink], by rw [rsps₁, rsps₂, h.encRsps],
    by rw [fresh₁, fresh₂, h.fresh]⟩

theorem EncAgree.resetEdge {s t : State} (h : EncAgree s t) : EncAgree s.resetEdge t.resetEdge :=
  ⟨by simp only [State.resetEdge, h.fresh], h.sink, h.encRsps, by simp [h.fresh]⟩

theorem EncAgree.clockEdge {p q : Pins} {s t : State} (hpq : SameEncPins p q) (h : EncAgree s t) :
    EncAgree (clockEdge p s) (clockEdge q t) := by
  cases hq : q.rst with
  | false =>
    rw [clockEdge_run s (hpq.1.trans hq), clockEdge_run t hq]
    exact (h.encEdge hpq).decEdge p q
  | true =>
    rw [clockEdge_reset s (hpq.1.trans hq), clockEdge_reset t hq]
    exact h.resetEdge

theorem EncAgree.withSched {s t : State} (h : EncAgree s t) (es fs : List Event) :
    EncAgree { s with sched := es } { t with sched := fs } :=
  ⟨h.enc, h.sink, h.encRsps, h.fresh⟩

/-! #### The decoder's part -/

theorem DecAgree.decAccept {s t : State} (h : DecAgree s t) : DecAgree (decAccept s) (decAccept t) := by
  obtain ⟨decEq, sourceEq, rspsEq, freshEq⟩ := h
  constructor <;> simp [decEq, sourceEq, rspsEq, freshEq]

theorem DecAgree.srcPull {s t : State} (h : DecAgree s t) : DecAgree s.srcPull.2 t.srcPull.2 := by
  obtain ⟨decEq, sourceEq, rspsEq, freshEq⟩ := h
  constructor <;> simp [decEq, sourceEq, rspsEq, freshEq]

/-- What D-FIRST leaves in the registers is a function of the answer and the registers. -/
theorem decFirst_dec_congr (a : Answer) {s t : State} (h : s.dec = t.dec) :
    (decFirst a s).dec = (decFirst a t).dec := by
  cases a with
  | exhausted => simp [h]
  | byte b =>
    simp only [decFirst_byte, decFirstAs, h]
    cases matchTag b with
    | none => rfl
    | some k => by_cases hk : k.cap = 1 <;> simp [hk]

/-- What D-REST leaves in the registers is a function of the answer and the registers. -/
theorem decRest_dec_congr (a : Answer) {s t : State} (h : s.dec = t.dec) :
    (decRest a s).dec = (decRest a t).dec := by
  cases a with
  | exhausted => simp [h]
  | byte b =>
    simp only [decRest_byte, decRestByte, h]
    by_cases hi : t.dec.idx + 1 = t.dec.k.capBits <;> simp only [hi, if_true, if_false]

theorem DecAgree.decFirst {s t : State} (h : DecAgree s t) (a : Answer) : DecAgree (decFirst a s) (decFirst a t) := by
  rw [decFirst_eq a s, decFirst_eq a t]
  exact ⟨decFirst_dec_congr a h.dec, h.source, h.decRsps, h.fresh⟩

theorem DecAgree.decRest {s t : State} (h : DecAgree s t) (a : Answer) : DecAgree (decRest a s) (decRest a t) := by
  rw [decRest_eq a s, decRest_eq a t]
  exact ⟨decRest_dec_congr a h.dec, h.source, h.decRsps, h.fresh⟩

theorem DecAgree.decRespond {s t : State} (h : DecAgree s t) : DecAgree (decRespond s) (decRespond t) := by
  obtain ⟨decEq, sourceEq, rspsEq, freshEq⟩ := h
  constructor <;> simp [decEq, sourceEq, rspsEq, freshEq]

theorem DecAgree.decEdge {p q : Pins} {s t : State} (hpq : SameDecPins p q) (h : DecAgree s t) :
    DecAgree (decEdge p s) (decEdge q t) := by
  obtain ⟨_, reqEq, srcEq, rspEq⟩ := hpq
  simp only [Machine.decEdge, h.dec, reqEq, srcEq, rspEq, srcPull_answer, h.source]
  cases t.dec.st with
  | idle => cases q.decReqValid <;> [exact h; exact h.decAccept]
  | first => cases q.srcValid <;> [exact h; exact h.srcPull.decFirst _]
  | rest => cases q.srcValid <;> [exact h; exact h.srcPull.decRest _]
  | resp => cases q.decRspReady <;> [exact h; exact h.decRespond]

/-- The encoder's part of an edge touches nothing of the decoder's. -/
theorem DecAgree.encEdge {s t : State} (h : DecAgree s t) (p q : Pins) : DecAgree (encEdge p s) (encEdge q t) := by
  obtain ⟨dec₁, source₁, rsps₁, _, fresh₁⟩ := encEdge_frame p s
  obtain ⟨dec₂, source₂, rsps₂, _, fresh₂⟩ := encEdge_frame q t
  exact ⟨by rw [dec₁, dec₂, h.dec], by rw [source₁, source₂, h.source], by rw [rsps₁, rsps₂, h.decRsps],
    by rw [fresh₁, fresh₂, h.fresh]⟩

theorem DecAgree.resetEdge {s t : State} (h : DecAgree s t) : DecAgree s.resetEdge t.resetEdge :=
  ⟨by simp only [State.resetEdge, h.fresh], h.source, h.decRsps, by simp [h.fresh]⟩

theorem DecAgree.clockEdge {p q : Pins} {s t : State} (hpq : SameDecPins p q) (h : DecAgree s t) :
    DecAgree (clockEdge p s) (clockEdge q t) := by
  cases hq : q.rst with
  | false =>
    rw [clockEdge_run s (hpq.1.trans hq), clockEdge_run t hq]
    exact (h.encEdge p q).decEdge hpq
  | true =>
    rw [clockEdge_reset s (hpq.1.trans hq), clockEdge_reset t hq]
    exact h.resetEdge

theorem DecAgree.withSched {s t : State} (h : DecAgree s t) (es fs : List Event) :
    DecAgree { s with sched := es } { t with sched := fs } :=
  ⟨h.dec, h.source, h.decRsps, h.fresh⟩

/-! #### Any number of edges -/

/-- An edge takes nothing from the schedule but itself. -/
theorem clockEdge_sched (p : Pins) (s : State) : (clockEdge p s).sched = s.sched := by
  cases h : p.rst with
  | false =>
    rw [clockEdge_run s h]
    obtain ⟨_, _, _, sched₁, _⟩ := encEdge_frame p s
    obtain ⟨_, _, _, sched₂, _⟩ := decEdge_frame p (encEdge p s)
    exact sched₂.trans sched₁
  | true => rw [clockEdge_reset s h]; rfl

theorem run_zero (s : State) : Sys2Proof.core.run 0 s = .next s := rfl

/-- A run whose first event is an edge goes on from the state that edge leaves. -/
theorem run_succ_edge {p : Pins} {rest : List Event} {s : State} (n : Nat) (h : s.sched = .edge p :: rest) :
    Sys2Proof.core.run (n + 1) s = Sys2Proof.core.run n (clockEdge p { s with sched := rest }) := by
  have hstep : Sys2Proof.core.step s = .next (clockEdge p { s with sched := rest }) := step_edge h
  simp only [Host.Core.run, hstep]

/-- A relation between states that an edge keeps under related pins, and that does not look at the schedule, is kept by
two runs over edges with related pins. -/
theorem run_edges_related {R : State → State → Prop} {P : Pins → Pins → Prop}
    (edge : ∀ {p q s t}, P p q → R s t → R (clockEdge p s) (clockEdge q t))
    (withSched : ∀ {s t}, R s t → ∀ es fs, R { s with sched := es } { t with sched := fs })
    {ps qs : List Pins} (hpq : List.Forall₂ P ps qs) {restP restQ : List Event} {s t : State}
    (hs : s.sched = ps.map .edge ++ restP) (ht : t.sched = qs.map .edge ++ restQ) (h : R s t) :
    ∃ s' t' : State,
      Sys2Proof.core.run ps.length s = .next s' ∧ Sys2Proof.core.run qs.length t = .next t' ∧ R s' t' := by
  induction hpq generalizing s t with
  | nil => exact ⟨s, t, run_zero s, run_zero t, h⟩
  | cons head _ ih =>
    rw [List.length_cons, List.length_cons, run_succ_edge _ hs, run_succ_edge _ ht]
    exact ih (clockEdge_sched _ _) (clockEdge_sched _ _) (edge head (withSched h _ _))

/-- Settles O36: each unit's part of the state is kept in agreement by every edge, hence by any number of them. -/
theorem neitherUnitDependsOnTheOther : Obligations.NeitherUnitDependsOnTheOther := by
  intro ps qs restP restQ s t hs ht hfresh
  constructor
  · intro hpq henc hsink hrsps
    obtain ⟨s', t', runS, runT, agree⟩ :=
      run_edges_related (R := EncAgree) EncAgree.clockEdge EncAgree.withSched hpq hs ht ⟨henc, hsink, hrsps, hfresh⟩
    exact ⟨s', t', runS, runT, agree.enc, agree.sink, agree.encRsps⟩
  · intro hpq hdec hsource hrsps
    obtain ⟨s', t', runS, runT, agree⟩ :=
      run_edges_related (R := DecAgree) DecAgree.clockEdge DecAgree.withSched hpq hs ht ⟨hdec, hsource, hrsps, hfresh⟩
    exact ⟨s', t', runS, runT, agree.dec, agree.source, agree.decRsps⟩

/-! ### The register invariants (spec/10_state.md R24) -/

/-! #### The tag of a record -/

theorem two_pow_pb_mul_ts (k : WidthClass) : 2 ^ k.pb * 2 ^ k.ts = 2 ^ (8 * k.cap) := by cases k <;> rfl

theorem toNat_tp_lt (k : WidthClass) : k.tp.toNat < 2 ^ (8 * k.cap) := by cases k <;> decide

/-- The mask of a class has a 1 exactly in the tag's bits. -/
theorem getLsbD_mask (k : WidthClass) (j : Nat) : k.mask.getLsbD j = decide (j < k.ts) := by
  have ones : k.mask.toNat = 2 ^ k.ts - 1 := by cases k <;> rfl
  rw [BitVec.getLsbD, ones, Nat.testBit_two_pow_sub_one]

/-- The tag is within the mask. -/
theorem tp_and_mask (k : WidthClass) : k.tp &&& k.mask = k.tp := by cases k <;> rfl

/-- A tagged record fits its class's bytes. -/
theorem toNat_tagged_lt {k : WidthClass} {v : Word} (h : v.toNat < 2 ^ k.pb) :
    (tagged k v).toNat < 2 ^ (8 * k.cap) := by
  rw [tagged, BitVec.toNat_or, BitVec.toNat_setWidth]
  apply Nat.or_lt_two_pow
  · calc (v <<< k.ts).toNat ≤ v.toNat * 2 ^ k.ts := by
          rw [BitVec.toNat_shiftLeft, Nat.shiftLeft_eq]; exact Nat.mod_le _ _
      _ < 2 ^ k.pb * 2 ^ k.ts := Nat.mul_lt_mul_of_pos_right h (Nat.two_pow_pos _)
      _ = 2 ^ (8 * k.cap) := two_pow_pb_mul_ts k
  · exact Nat.lt_of_le_of_lt (Nat.mod_le _ _) (toNat_tp_lt k)

/-- Shifting a value past the tag leaves the tag's bits 0. -/
theorem shiftLeft_ts_and_mask (k : WidthClass) (v : Word) : (v <<< k.ts) &&& k.mask.setWidth 64 = 0#64 := by
  apply word_ext
  intro j hj
  rw [BitVec.getLsbD_and, BitVec.getLsbD_shiftLeft, BitVec.getLsbD_setWidth, getLsbD_mask]
  by_cases h : j < k.ts <;> simp [h]

/-- A tagged record holds its class's tag, whatever the value. -/
theorem tagged_holdsTag (k : WidthClass) (v : Word) : HoldsTag k (tagged k v) := by
  rw [HoldsTag, tagged, BitVec.and_or_distrib_right, shiftLeft_ts_and_mask, BitVec.zero_or, ← BitVec.setWidth_and,
    tp_and_mask]

/-- A record whose first byte matches a class holds the class's tag. -/
theorem holdsTag_of_matchTag {b : Byte} {k : WidthClass} (h : matchTag b = some k) : HoldsTag k (b.setWidth 64) := by
  rw [HoldsTag, ← BitVec.setWidth_and, tag_of_matchTag h]

/-- Every byte matches a class: the InvalidTagError arm is dead (spec/42_decoder.md R175). -/
theorem matchTag_ne_none (b : Byte) : matchTag b ≠ none := by
  obtain ⟨i, hi⟩ := decodeFirst_ok b
  intro h
  simp [decodeFirst, h] at hi

theorem cap_pos (k : WidthClass) : 0 < k.cap := by cases k <;> decide

theorem capBits_mem (k : WidthClass) : k.capBits ∈ [0#4, 1#4, 2#4, 4#4, 8#4] := by cases k <;> decide

theorem capBits_ne_zero (k : WidthClass) : k.capBits ≠ 0#4 := by cases k <;> decide

/-! #### The encoder's rows -/

theorem encInv_of_idle {u : EncUnit} (h : u.st = .idle) : EncInv u := by simp [EncInv, h]

theorem encInv_encAccept (v : Word) (s : State) : EncInv (encAccept v s).enc := by
  cases hk : select v with
  | none => simp [encAccept, hk, EncInv]
  | some k =>
    rw [encAccept, hk, encAcceptAs_some]
    refine ⟨fun _ => ⟨cap_pos k, rfl, k, mem_all k, rfl, ?_, tagged_holdsTag k v⟩, nofun⟩
    exact toNat_tagged_lt (lt_of_select hk)

/-- E-EMIT of a record's last byte goes on to the response. -/
theorem encEmit_enc_last {s : State} (h : s.enc.idx + 1 = s.enc.cap) :
    (encEmit s).enc = { s.enc with idx := s.enc.idx + 1, st := .resp } := by
  simp only [encEmit_enc, h, if_true]

/-- E-EMIT of any other byte goes on emitting. -/
theorem encEmit_enc_more {s : State} (h : s.enc.idx + 1 ≠ s.enc.cap) :
    (encEmit s).enc = { s.enc with idx := s.enc.idx + 1 } := by
  simp only [encEmit_enc, h, if_false]

theorem encInv_encEmit {s : State} (hst : s.enc.st = .emit) (h : EncInv s.enc) : EncInv (encEmit s).enc := by
  obtain ⟨hemit, _⟩ := h
  obtain ⟨hidx, hok, k, hk, hcap, hbuf, htag⟩ := hemit hst
  by_cases hlast : s.enc.idx + 1 = s.enc.cap
  · rw [encEmit_enc_last hlast]
    refine ⟨nofun, fun _ => ⟨hlast, hcap ▸ capBits_mem k, ?_, .inl hok⟩⟩
    simp [hcap, capBits_ne_zero k, hok]
  · rw [encEmit_enc_more hlast]
    have hsucc : (s.enc.idx + 1).toNat = s.enc.idx.toNat + 1 :=
      toNat_idx_succ (k := k) (by rw [← toNat_capBits, ← hcap]; exact hidx)
    have hne : (s.enc.idx + 1).toNat ≠ s.enc.cap.toNat := fun e => hlast (BitVec.eq_of_toNat_eq e)
    refine ⟨fun _ => ⟨?_, hok, k, hk, hcap, hbuf, htag⟩, fun e => absurd (hst.symm.trans e) (by decide)⟩
    simp only [hsucc] at hne ⊢
    omega

theorem encInv_encEdge (p : Pins) {s : State} (h : EncInv s.enc) : EncInv (encEdge p s).enc := by
  rcases encEdge_cases p s with e | ⟨_, v, _, e⟩ | ⟨hst, _, e⟩ | ⟨_, _, e⟩ <;> rw [e]
  · exact h
  · exact encInv_encAccept v s
  · exact encInv_encEmit hst h
  · exact encInv_of_idle rfl

/-! #### The decoder's rows -/

theorem decInv_of_idle {u : DecUnit} (h : u.st = .idle) : DecInv u := by simp [DecInv, h]

theorem decInv_decAccept (s : State) : DecInv (decAccept s).dec := by simp [DecInv]

theorem decInv_decFirst {s : State} (hst : s.dec.st = .first) (h : DecInv s.dec) (a : Answer) :
    DecInv (decFirst a s).dec := by
  obtain ⟨hfirst, _⟩ := h
  obtain ⟨hbuf, hidx⟩ := hfirst hst
  cases a with
  | exhausted => simp [DecInv, hbuf, hidx]
  | byte b =>
    cases hk : matchTag b with
    | none => exact absurd hk (matchTag_ne_none b)
    | some k =>
      have hlane : setByteLane s.dec.buf 0 b = b.setWidth 64 := hbuf ▸ setByteLane_zero b
      have htag := holdsTag_of_matchTag hk
      have hlt := byte_lt b
      by_cases hcap : k.cap = 1
      · simp only [decFirst_byte, hk, decFirstAs, hcap, if_true, hlane]
        refine ⟨nofun, nofun, fun _ => ⟨by simp, hlt, fun _ => htag, .inl ⟨rfl, ?_⟩⟩⟩
        exact hcap.symm
      · have := cap_pos k
        simp only [decFirst_byte, hk, decFirstAs, hcap, if_false, hlane]
        refine ⟨nofun, fun _ => ⟨by simp, ?_, hlt, htag⟩, nofun⟩
        simp; omega

theorem decInv_decRest {s : State} (hst : s.dec.st = .rest) (h : DecInv s.dec) (a : Answer) :
    DecInv (decRest a s).dec := by
  obtain ⟨_, hrest, _⟩ := h
  obtain ⟨hpos, hidx, hbuf, htag⟩ := hrest hst
  have hcap := cap_le s.dec.k
  cases a with
  | exhausted =>
    refine ⟨nofun, nofun, fun _ => ⟨?_, hbuf, fun _ => htag, .inr ⟨rfl, .inl hidx⟩⟩⟩
    simp; omega
  | byte b =>
    have hsucc := toNat_idx_succ hidx
    have hbuf' : (setByteLane s.dec.buf s.dec.idx.toNat b).toNat < 2 ^ (8 * (s.dec.idx + 1).toNat) :=
      hsucc ▸ toNat_setByteLane_lt b hbuf
    have htag' : HoldsTag s.dec.k (setByteLane s.dec.buf s.dec.idx.toNat b) := (setByteLane_tag b hpos).trans htag
    rw [decRest_byte]
    by_cases hlast : s.dec.idx.toNat + 1 = s.dec.k.cap
    · rw [decRestByte_last hlast]
      refine ⟨nofun, nofun,
        fun _ => ⟨?_, hbuf', fun _ => htag', .inl ⟨rfl, hsucc.trans hlast⟩⟩⟩
      simp only [hsucc]; omega
    · rw [decRestByte_more (by omega)]
      refine ⟨fun e => absurd (hst.symm.trans e) (by decide), fun _ => ⟨?_, ?_, hbuf', htag'⟩,
        fun e => absurd (hst.symm.trans e) (by decide)⟩
      · simp only [hsucc]; omega
      · simp only [hsucc]; omega

theorem decInv_decEdge (p : Pins) {s : State} (h : DecInv s.dec) : DecInv (decEdge p s).dec := by
  rcases decEdge_cases p s with e | ⟨_, _, e⟩ | ⟨hst, _, e⟩ | ⟨hst, _, e⟩ | ⟨_, _, e⟩ <;> rw [e]
  · exact h
  · exact decInv_decAccept s
  · exact decInv_decFirst (s := s.srcPull.2) hst h _
  · exact decInv_decRest (s := s.srcPull.2) hst h _
  · exact decInv_of_idle rfl

/-! #### Every step -/

theorem regInv_clockEdge (p : Pins) {s : State} (h : RegInv s) : RegInv (clockEdge p s) := by
  obtain ⟨henc, hdec⟩ := h
  cases hr : p.rst with
  | true =>
    rw [clockEdge_reset s hr]
    exact ⟨encInv_of_idle rfl, decInv_of_idle rfl⟩
  | false =>
    rw [clockEdge_run s hr]
    obtain ⟨decEq, _⟩ := encEdge_frame p s
    obtain ⟨encEq, _⟩ := decEdge_frame p (encEdge p s)
    exact ⟨encEq ▸ encInv_encEdge p henc, decInv_decEdge p (decEq ▸ hdec)⟩

/-- A whole `ENC` touches nothing of the decoder. -/
theorem encRun_frame (k : Option WidthClass) (v : Word) (s : State) :
    (encRun k v s).dec = s.dec ∧ (encRun k v s).source = s.source ∧ (encRun k v s).decRsps = s.decRsps := by
  cases k with
  | none => rw [encRun_none]; exact ⟨rfl, rfl, rfl⟩
  | some k => rw [encRun_some]; exact ⟨rfl, rfl, rfl⟩

/-- A whole `DEC` touches nothing of the encoder. -/
theorem decRun_frame (k : WidthClass) (b : Byte) (s : State) :
    (decRun (some k) b s).enc = s.enc ∧ (decRun (some k) b s).sink = s.sink ∧
      (decRun (some k) b s).encRsps = s.encRsps := by
  rcases decRun_cases k b s with ⟨_, _, _, _, e⟩ | ⟨_, _, _, _, _, e⟩ <;> rw [e] <;> exact ⟨rfl, rfl, rfl⟩

/-- A whole operation ends with its unit idle, the other unit as it was. -/
theorem regInv_exec {i : Instr} {s t : State} (h : RegInv s) (e : exec i s = .next t) : RegInv t := by
  obtain ⟨henc, hdec⟩ := h
  rcases exec_cases i s with ⟨k, v, e', _⟩ | ⟨k, b, e', _⟩ | e' <;> cases e'.symm.trans e
  · obtain ⟨decEq, _⟩ := encRun_frame k v s
    exact ⟨encInv_of_idle rfl, decEq ▸ hdec⟩
  · obtain ⟨encEq, _⟩ := decRun_frame k b s
    exact ⟨encEq ▸ henc, decInv_of_idle rfl⟩
  · exact ⟨henc, hdec⟩

/-- Settles O40: an edge keeps each unit's rows, and a whole operation ends with its unit idle. -/
theorem everyStepKeepsTheRegisterInvariants : Obligations.EveryStepKeepsTheRegisterInvariants := by
  intro s t h hstep
  rcases step_cases hstep with ⟨_, rfl⟩ | ⟨p, rest, _, rfl⟩ | ⟨v, rest, _, e⟩ | ⟨rest, _, hdec⟩
  · exact h
  · exact regInv_clockEdge p h
  · exact regInv_exec (s := { s with sched := rest }) h e
  · rcases hdec with ⟨_, rfl⟩ | ⟨_, _, rfl⟩ | ⟨b, i, left, _, _, _, e⟩
    · exact h
    · exact ⟨h.1, decInv_of_idle rfl⟩
    · exact regInv_exec (s := { s with sched := rest, source := left }) h e

/-! ### The responses (spec/10_state.md R33, R36) -/

theorem legal_encRsp_of_cap (k : WidthClass) : EncRsp.Legal { status := .ok, count := BitVec.ofNat 8 k.cap } := by
  cases k <;> decide

/-- A register of 4 bits that holds a class's capacity holds it in the 8 bits of the port as well. -/
theorem setWidth_mem_of_mem {c : BitVec 4} (h : c ∈ [0#4, 1#4, 2#4, 4#4, 8#4]) (h0 : c ≠ 0#4) :
    c.setWidth 8 ∈ [1#8, 2#8, 4#8, 8#8] := by
  revert c; decide

/-- What the encoder offers in `E_RESP` is legal. -/
theorem encResponse_legal {u : EncUnit} (hst : u.st = .resp) (h : EncInv u) : u.response.Legal := by
  obtain ⟨_, hresp⟩ := h
  obtain ⟨hidx, hcap, hrange, hok | hr⟩ := hresp hst
  · refine .inl ⟨hok, ?_⟩
    rw [EncUnit.response, hidx]
    exact setWidth_mem_of_mem hcap fun h0 => by simp [hrange.1 h0] at hok
  · refine .inr ⟨hr, ?_⟩
    rw [EncUnit.response, hidx, hrange.2 hr]
    rfl

/-- The payload of a record that fits its class's bytes is below 2^61 (spec/42_decoder.md R177). -/
theorem toNat_payload_lt {k : WidthClass} {r : Word} (h : r.toNat < 2 ^ (8 * k.cap)) :
    (payload k r).toNat < 2 ^ 61 := by
  rw [payload, BitVec.toNat_ushiftRight, Nat.shiftRight_eq_div_pow]
  have hpb : 2 ^ k.pb ≤ 2 ^ 61 := Nat.pow_le_pow_right (by decide) (by cases k <;> decide)
  refine Nat.lt_of_lt_of_le (Nat.div_lt_of_lt_mul ?_) hpb
  rwa [Nat.mul_comm, two_pow_pb_mul_ts]

/-- What the decoder offers in `D_RESP` is legal. -/
theorem decResponse_legal {u : DecUnit} (hst : u.st = .resp) (h : DecInv u) : u.response.Legal := by
  obtain ⟨_, _, hresp⟩ := h
  obtain ⟨_, hbuf, _, ⟨hok, hidx⟩ | ⟨htrunc, _⟩⟩ := hresp hst
  · refine .inl ⟨hok, ?_⟩
    rw [DecUnit.response, if_pos hok]
    exact toNat_payload_lt (hidx ▸ hbuf)
  · exact .inr ⟨htrunc, by simp [DecUnit.response, htrunc]⟩

/-- The encoder's part of an edge adds no response but the one its unit offers in `E_RESP`. -/
theorem encEdge_encRsps (p : Pins) (s : State) :
    (encEdge p s).encRsps = s.encRsps ∨
      (s.enc.st = .resp ∧ (encEdge p s).encRsps = s.encRsps ++ [s.enc.response]) := by
  rcases encEdge_cases p s with e | ⟨_, v, _, e⟩ | ⟨_, _, e⟩ | ⟨hst, _, e⟩ <;> rw [e]
  · exact .inl rfl
  · obtain ⟨_, _, _, hrsps, _⟩ := encAccept_frame v s
    exact .inl hrsps
  · exact .inl rfl
  · exact .inr ⟨hst, rfl⟩

/-- The decoder's part of an edge adds no response but the one its unit offers in `D_RESP`. -/
theorem decEdge_decRsps (p : Pins) (s : State) :
    (decEdge p s).decRsps = s.decRsps ∨
      (s.dec.st = .resp ∧ (decEdge p s).decRsps = s.decRsps ++ [s.dec.response]) := by
  rcases decEdge_cases p s with e | ⟨_, _, e⟩ | ⟨_, _, e⟩ | ⟨_, _, e⟩ | ⟨hst, _, e⟩ <;> rw [e]
  · exact .inl rfl
  · exact .inl rfl
  · rw [decFirst_eq]; exact .inl rfl
  · rw [decRest_eq]; exact .inl rfl
  · exact .inr ⟨hst, rfl⟩

/-- One more legal response keeps all of them legal. -/
theorem forall_legal_append {α : Type} {legal : α → Prop} {rs : List α} {r : α} (h : ∀ x ∈ rs, legal x)
    (hr : legal r) : ∀ x ∈ rs ++ [r], legal x :=
  List.forall_mem_append.2 ⟨h, List.forall_mem_singleton.2 hr⟩

theorem encEdge_encRsps_legal (p : Pins) {s : State} (hinv : EncInv s.enc) (h : ∀ r ∈ s.encRsps, r.Legal) :
    ∀ r ∈ (encEdge p s).encRsps, r.Legal := by
  rcases encEdge_encRsps p s with e | ⟨hst, e⟩ <;> rw [e]
  · exact h
  · exact forall_legal_append h (encResponse_legal hst hinv)

theorem decEdge_decRsps_legal (p : Pins) {s : State} (hinv : DecInv s.dec) (h : ∀ r ∈ s.decRsps, r.Legal) :
    ∀ r ∈ (decEdge p s).decRsps, r.Legal := by
  rcases decEdge_decRsps p s with e | ⟨hst, e⟩ <;> rw [e]
  · exact h
  · exact forall_legal_append h (decResponse_legal hst hinv)

theorem responsesLegal_clockEdge (p : Pins) {s : State} (hinv : RegInv s) (h : ResponsesLegal s) :
    ResponsesLegal (clockEdge p s) := by
  cases hr : p.rst with
  | true => rw [clockEdge_reset s hr]; exact h
  | false =>
    rw [clockEdge_run s hr]
    obtain ⟨hdec, _, hdecRsps, _⟩ := encEdge_frame p s
    obtain ⟨_, _, hencRsps, _⟩ := decEdge_frame p (encEdge p s)
    constructor
    · rw [hencRsps]
      exact encEdge_encRsps_legal p hinv.1 h.1
    · exact decEdge_decRsps_legal p (hdec ▸ hinv.2) (hdecRsps ▸ h.2)

/-- A whole `ENC` adds one response, a legal one. -/
theorem encRun_encRsps_legal (k : Option WidthClass) (v : Word) {s : State} (h : ∀ r ∈ s.encRsps, r.Legal) :
    ∀ r ∈ (encRun k v s).encRsps, r.Legal := by
  cases k with
  | none => rw [encRun_none]; exact forall_legal_append h (.inr ⟨rfl, rfl⟩)
  | some k => rw [encRun_some]; exact forall_legal_append h (legal_encRsp_of_cap k)

/-- The bytes of a record make a word of that many bytes. -/
theorem toNat_assemble_lt (bs : List Byte) : (assemble bs).toNat < 2 ^ (8 * bs.length) := by
  induction bs with
  | nil => decide
  | cons b bs ih =>
    rw [assemble, BitVec.toNat_or, List.length_cons]
    apply Nat.or_lt_two_pow
    · exact Nat.lt_of_lt_of_le (byte_lt b) (Nat.pow_le_pow_right (by decide) (by omega))
    · rw [BitVec.toNat_shiftLeft, Nat.shiftLeft_eq, Nat.mul_add, Nat.pow_add]
      exact Nat.lt_of_le_of_lt (Nat.mod_le _ _) (Nat.mul_lt_mul_of_pos_right ih (by decide))

/-- A whole `DEC` adds one response, a legal one. -/
theorem decRun_decRsps_legal (k : WidthClass) (b : Byte) {s : State} (h : ∀ r ∈ s.decRsps, r.Legal) :
    ∀ r ∈ (decRun (some k) b s).decRsps, r.Legal := by
  rcases decRun_cases k b s with ⟨got, _, _, hlen, e⟩ | ⟨_, _, _, _, _, e⟩ <;> rw [e]
  · have hrec : (assemble (b :: got)).toNat < 2 ^ (8 * k.cap) := hlen ▸ toNat_assemble_lt (b :: got)
    exact forall_legal_append h (.inl ⟨rfl, toNat_payload_lt hrec⟩)
  · exact forall_legal_append h (.inr ⟨rfl, rfl⟩)

theorem responsesLegal_exec {i : Instr} {s t : State} (h : ResponsesLegal s) (e : exec i s = .next t) :
    ResponsesLegal t := by
  obtain ⟨henc, hdec⟩ := h
  rcases exec_cases i s with ⟨k, v, e', _⟩ | ⟨k, b, e', _⟩ | e' <;> cases e'.symm.trans e
  · obtain ⟨_, _, hdecRsps⟩ := encRun_frame k v s
    exact ⟨encRun_encRsps_legal k v henc, hdecRsps ▸ hdec⟩
  · obtain ⟨_, _, hencRsps⟩ := decRun_frame k b s
    exact ⟨hencRsps ▸ henc, decRun_decRsps_legal k b hdec⟩
  · exact ⟨henc, hdec⟩

theorem responsesLegal_decRunEmpty {s : State} (h : ResponsesLegal s) : ResponsesLegal (decRunEmpty s) := by
  rw [decRunEmpty_eq]
  exact ⟨h.1, forall_legal_append h.2 (.inr ⟨rfl, rfl⟩)⟩

/-- Settles O41: a response taken at an edge is legal by the register invariants, and a whole operation adds one that is
legal in any case. -/
theorem everyStepKeepsResponsesLegal : Obligations.EveryStepKeepsResponsesLegal := by
  intro s t hinv h hstep
  rcases step_cases hstep with ⟨_, rfl⟩ | ⟨p, rest, _, rfl⟩ | ⟨v, rest, _, e⟩ | ⟨rest, _, hdec⟩
  · exact h
  · exact responsesLegal_clockEdge p (s := { s with sched := rest }) hinv h
  · exact responsesLegal_exec (s := { s with sched := rest }) h e
  · rcases hdec with ⟨_, rfl⟩ | ⟨_, _, rfl⟩ | ⟨b, i, left, _, _, _, e⟩
    · exact h
    · exact responsesLegal_decRunEmpty (s := { s with sched := rest, source := (nextAnswer s.source).2 }) h
    · exact responsesLegal_exec (s := { s with sched := rest, source := left }) h e

/-! ### Stale registers (spec/10_state.md R26) -/

/-- A whole `ENC` overwrites every register of the encoder. -/
theorem encRun_ignores_enc (k : Option WidthClass) (v : Word) (u : EncUnit) (s : State) :
    encRun k v { s with enc := u } = encRun k v s := by
  cases k with
  | none => rw [encRun_none, encRun_none]
  | some k => rw [encRun_some, encRun_some]

/-- A whole `DEC` overwrites every register of the decoder, on a source that has the record and on one that runs out. -/
theorem decRun_ignores_dec (k : WidthClass) (b : Byte) (u : DecUnit) (s : State) :
    decRun (some k) b { s with dec := u } = decRun (some k) b s := by
  have hpos := cap_pos k
  rcases source_bytes_or_short (k.cap - 1) s.source with ⟨got, left, hlen, hsrc⟩ | ⟨got, left, hlen, hsrc, hleft⟩
  · rw [decRun_bytes k b got left s (by omega) hsrc, decRun_bytes k b got left { s with dec := u } (by omega) hsrc]
  · rw [decRun_short k b got left s (by omega) hsrc hleft,
      decRun_short k b got left { s with dec := u } (by omega) hsrc hleft]

theorem encOperation_of_idle (k : Option WidthClass) (v : Word) {s : State} (h : s.enc.st = .idle) :
    encOperation k v s = .next (encRun k v s) := by
  simp [encOperation, EncUnit.reqReady, h]

theorem decOperation_of_idle (k : WidthClass) (b : Byte) {s : State} (h : s.dec.st = .idle) :
    decOperation k b s = .next (decRun (some k) b s) := by
  simp [decOperation, DecUnit.reqReady, h]

/-- An `ENC` by an idle encoder does not depend on what its registers held. -/
theorem encOperation_ignores_enc (k : Option WidthClass) (v : Word) {u : EncUnit} {s : State} (hs : s.enc.st = .idle)
    (hu : u.st = .idle) : encOperation k v { s with enc := u } = encOperation k v s := by
  rw [encOperation_of_idle k v hs, encOperation_of_idle k v (s := { s with enc := u }) hu, encRun_ignores_enc]

/-- A `DEC` by an idle decoder does not depend on what its registers held. -/
theorem decOperation_ignores_dec (k : WidthClass) (b : Byte) {u : DecUnit} {s : State} (hs : s.dec.st = .idle)
    (hu : u.st = .idle) : decOperation k b { s with dec := u } = decOperation k b s := by
  rw [decOperation_of_idle k b hs, decOperation_of_idle k b (s := { s with dec := u }) hu, decRun_ignores_dec]

/-- A `DEC` event at an idle decoder with an empty source. -/
theorem step_decOp_of_source_nil {rest : List Event} {s : State} (hsrc : s.source = [])
    (hsched : s.sched = .decOp :: rest) (hst : s.dec.st = .idle) :
    step s = .next (decRunEmpty { s with sched := rest }) := by
  simp [step, fetch, fetchDec, hsched, DecUnit.reqReady, hst, State.srcPull, hsrc]

/-- Settles O38: a whole operation overwrites every register of its unit; on an empty source the response is TRUNC. -/
theorem staleRegistersReachNoPort : Obligations.StaleRegistersReachNoPort := by
  refine ⟨?_, ?_, ?_⟩
  · intro v u i s hi hs hu
    simp only [List.mem_cons, List.not_mem_nil, or_false] at hi
    rcases hi with rfl | rfl | rfl | rfl | rfl <;> exact encOperation_ignores_enc _ v hs hu
  · intro b u i s hi hs hu
    simp only [List.mem_cons, List.not_mem_nil, or_false] at hi
    rcases hi with rfl | rfl | rfl | rfl <;> exact decOperation_ignores_dec _ b hs hu
  · intro u rest s hsrc hsched hs hu
    refine ⟨_, _, step_decOp_of_source_nil (s := { s with dec := u }) hsrc hsched hu,
      step_decOp_of_source_nil hsrc hsched hs, ?_⟩
    rw [decRunEmpty_eq, decRunEmpty_eq]

/-! ### The output pins (spec/10_state.md R37) -/

/-- The encoder's ready and valid outputs, by its state. -/
theorem outputs_enc_iff (s : State) :
    ((outputs s).encReqReady = true ↔ s.enc.st = .idle) ∧ ((outputs s).snkValid = true ↔ s.enc.st = .emit) ∧
      ((outputs s).encRspValid = true ↔ s.enc.st = .resp) := by
  simp [outputs, EncUnit.reqReady, EncUnit.snkValid, EncUnit.rspValid]

/-- The decoder's ready and valid outputs, by its state. -/
theorem outputs_dec_iff (s : State) :
    ((outputs s).decReqReady = true ↔ s.dec.st = .idle) ∧
      ((outputs s).srcReady = true ↔ s.dec.st = .first ∨ s.dec.st = .rest) ∧
      ((outputs s).decRspValid = true ↔ s.dec.st = .resp) := by
  simp [outputs, DecUnit.reqReady, DecUnit.srcReady, DecUnit.rspValid]

/-- In every state exactly one of the encoder's three is 1 (spec/70_reset_and_hazards.md R245). -/
theorem outputs_enc_count (s : State) :
    [(outputs s).encReqReady, (outputs s).snkValid, (outputs s).encRspValid].count true = 1 := by
  cases h : s.enc.st <;> simp [outputs, EncUnit.reqReady, EncUnit.snkValid, EncUnit.rspValid, h]

/-- In every state exactly one of the decoder's three is 1 (spec/70_reset_and_hazards.md R245). -/
theorem outputs_dec_count (s : State) :
    [(outputs s).decReqReady, (outputs s).srcReady, (outputs s).decRspValid].count true = 1 := by
  cases h : s.dec.st <;> simp [outputs, DecUnit.reqReady, DecUnit.srcReady, DecUnit.rspValid, h]

theorem outputs_snkData {s : State} (h : s.enc.st = .emit) : (outputs s).snkData = some s.enc.sinkByte := by
  simp [outputs, EncUnit.snkValid, h]

theorem outputs_encRsp {s : State} (h : s.enc.st = .resp) :
    (outputs s).encRspStatus = some s.enc.response.status.code ∧
      (outputs s).encRspCount = some s.enc.response.count := by
  simp [outputs, EncUnit.rspValid, h]

theorem outputs_decRsp {s : State} (h : s.dec.st = .resp) :
    (outputs s).decRspStatus = some s.dec.response.status.code ∧
      (outputs s).decRspValue = some s.dec.response.value := by
  simp [outputs, DecUnit.rspValid, h]

/-- Settles O33, unit by unit: the table of the outputs, which of them is 1, and the payloads. -/
theorem outputsAreFunctionsOfTheState : Obligations.OutputsAreFunctionsOfTheState := by
  intro s
  obtain ⟨encReq, snk, encRsp⟩ := outputs_enc_iff s
  obtain ⟨decReq, src, decRsp⟩ := outputs_dec_iff s
  exact ⟨encReq, snk, encRsp, decReq, src, decRsp, outputs_enc_count s, outputs_dec_count s, outputs_snkData,
    outputs_encRsp, outputs_decRsp⟩

/-! ### The reset state (spec/10_state.md R40, R41) -/

/-- A state with both units idle has both request ports ready, and no other port ready or valid. -/
theorem outputs_of_quiescent {s : State} (h : Quiescent s) :
    (outputs s).encReqReady = true ∧ (outputs s).snkValid = false ∧ (outputs s).encRspValid = false ∧
      (outputs s).decReqReady = true ∧ (outputs s).srcReady = false ∧ (outputs s).decRspValid = false := by
  obtain ⟨henc, hdec⟩ := h
  simp [outputs, EncUnit.reqReady, EncUnit.snkValid, EncUnit.rspValid, DecUnit.reqReady, DecUnit.srcReady,
    DecUnit.rspValid, henc, hdec]

theorem quiescent_reset : Quiescent State.reset := ⟨rfl, rfl⟩

/-- Settles O35: both units are idle after reset. -/
theorem afterResetBothUnitsAreReady : Obligations.AfterResetBothUnitsAreReady :=
  ⟨quiescent_reset.1, quiescent_reset.2, outputs_of_quiescent quiescent_reset⟩

/-- Settles O39: the invariants ask nothing of an idle unit, and no response has been taken yet. -/
theorem resetMeetsTheInvariants : Obligations.ResetMeetsTheInvariants := by
  refine ⟨⟨encInv_of_idle rfl, decInv_of_idle rfl⟩, ⟨nofun, nofun⟩, ?_⟩
  rintro (emit | ⟨resp, _⟩)
  · exact absurd emit (by decide)
  · exact absurd resp (by decide)

end Sys2Proof.Machine

namespace Sys2Proof.Machine

/-! ### An edge on which both units transfer (spec/20_memory.md R63) -/

theorem EncAgree.symm {s t : State} (h : EncAgree s t) : EncAgree t s :=
  ⟨h.enc.symm, h.sink.symm, h.encRsps.symm, h.fresh.symm⟩

theorem EncAgree.trans {s t r : State} (h : EncAgree s t) (g : EncAgree t r) : EncAgree s r :=
  ⟨h.enc.trans g.enc, h.sink.trans g.sink, h.encRsps.trans g.encRsps, h.fresh.trans g.fresh⟩

theorem DecAgree.symm {s t : State} (h : DecAgree s t) : DecAgree t s :=
  ⟨h.dec.symm, h.source.symm, h.decRsps.symm, h.fresh.symm⟩

theorem DecAgree.trans {s t r : State} (h : DecAgree s t) (g : DecAgree t r) : DecAgree s r :=
  ⟨h.dec.trans g.dec, h.source.trans g.source, h.decRsps.trans g.decRsps, h.fresh.trans g.fresh⟩

/-- The two units' parts and the schedule are the whole state. -/
theorem eq_of_encAgree_of_decAgree {s t : State} (henc : EncAgree s t) (hdec : DecAgree s t)
    (hsched : s.sched = t.sched) : s = t := by
  obtain ⟨encEq, sinkEq, encRspsEq, freshEq⟩ := henc
  obtain ⟨decEq, sourceEq, decRspsEq, _⟩ := hdec
  cases s; cases t
  simp_all

theorem encAgree_decEdge_self (p : Pins) (s : State) : EncAgree (decEdge p s) s := by
  obtain ⟨enc, sink, encRsps, _, fresh⟩ := decEdge_frame p s
  exact ⟨enc, sink, encRsps, fresh⟩

theorem decAgree_encEdge_self (p : Pins) (s : State) : DecAgree (encEdge p s) s := by
  obtain ⟨dec, source, decRsps, _, fresh⟩ := encEdge_frame p s
  exact ⟨dec, source, decRsps, fresh⟩

theorem encEdge_sched (p : Pins) (s : State) : (encEdge p s).sched = s.sched := by
  obtain ⟨_, _, _, sched, _⟩ := encEdge_frame p s
  exact sched

theorem decEdge_sched (p : Pins) (s : State) : (decEdge p s).sched = s.sched := by
  obtain ⟨_, _, _, sched, _⟩ := decEdge_frame p s
  exact sched

/-- The two units' parts of an edge commute: each is kept by the other's part and does not depend on it. -/
theorem decEdge_encEdge_comm (p : Pins) (s : State) : decEdge p (encEdge p s) = encEdge p (decEdge p s) := by
  have encPins : SameEncPins p p := ⟨rfl, rfl, rfl, rfl⟩
  have decPins : SameDecPins p p := ⟨rfl, rfl, rfl, rfl⟩
  have henc : EncAgree (decEdge p (encEdge p s)) (encEdge p (decEdge p s)) :=
    (encAgree_decEdge_self p (encEdge p s)).trans ((encAgree_decEdge_self p s).symm.encEdge encPins)
  have hdec : DecAgree (decEdge p (encEdge p s)) (encEdge p (decEdge p s)) :=
    ((decAgree_encEdge_self p s).decEdge decPins).trans (decAgree_encEdge_self p (decEdge p s)).symm
  have hsched : (decEdge p (encEdge p s)).sched = (encEdge p (decEdge p s)).sched := by
    rw [decEdge_sched, encEdge_sched, encEdge_sched, decEdge_sched]
  exact eq_of_encAgree_of_decAgree henc hdec hsched

/-- Settles O37: an edge is the encoder's part and then the decoder's, and the two parts commute. -/
theorem unitsMayTransferInEitherOrder : Obligations.UnitsMayTransferInEitherOrder := fun p s hr =>
  ⟨clockEdge_run s hr, (clockEdge_run s hr).trans (decEdge_encEdge_comm p s)⟩

/-! ### An edge without a handshake (spec/20_memory.md R51) -/

/-- None of the encoder's three ports has valid and ready both 1. -/
abbrev NoEncHandshake (p : Pins) (s : State) : Prop :=
  ¬ (p.encReq.isSome = true ∧ (outputs s).encReqReady = true) ∧
    ¬ ((outputs s).snkValid = true ∧ p.snkReady = true) ∧
    ¬ ((outputs s).encRspValid = true ∧ p.encRspReady = true)

/-- None of the decoder's three ports has valid and ready both 1. -/
abbrev NoDecHandshake (p : Pins) (s : State) : Prop :=
  ¬ (p.decReqValid = true ∧ (outputs s).decReqReady = true) ∧
    ¬ (p.srcValid = true ∧ (outputs s).srcReady = true) ∧
    ¬ ((outputs s).decRspValid = true ∧ p.decRspReady = true)

theorem encEdge_of_noHandshake {p : Pins} {s : State} (h : NoEncHandshake p s) : encEdge p s = s := by
  obtain ⟨noReq, noSnk, noRsp⟩ := h
  obtain ⟨reqReady, snkValid, rspValid⟩ := outputs_enc_iff s
  rcases encEdge_cases p s with e | ⟨hst, v, hv, _⟩ | ⟨hst, hr, _⟩ | ⟨hst, hr, _⟩
  · exact e
  · exact absurd ⟨Option.isSome_of_eq_some hv, reqReady.2 hst⟩ noReq
  · exact absurd ⟨snkValid.2 hst, hr⟩ noSnk
  · exact absurd ⟨rspValid.2 hst, hr⟩ noRsp

theorem decEdge_of_noHandshake {p : Pins} {s : State} (h : NoDecHandshake p s) : decEdge p s = s := by
  obtain ⟨noReq, noSrc, noRsp⟩ := h
  obtain ⟨reqReady, srcReady, rspValid⟩ := outputs_dec_iff s
  rcases decEdge_cases p s with e | ⟨hst, hv, _⟩ | ⟨hst, hv, _⟩ | ⟨hst, hv, _⟩ | ⟨hst, hr, _⟩
  · exact e
  · exact absurd ⟨hv, reqReady.2 hst⟩ noReq
  · exact absurd ⟨hv, srcReady.2 (.inl hst)⟩ noSrc
  · exact absurd ⟨hv, srcReady.2 (.inr hst)⟩ noSrc
  · exact absurd ⟨rspValid.2 hst, hr⟩ noRsp

/-- Settles O32: a unit's own part of the edge leaves the state as it is, and the other unit's part keeps its fields. -/
theorem noHandshakeNoTransfer : Obligations.NoHandshakeNoTransfer := by
  intro p rest s hsched hr
  refine ⟨_, (step_edge hsched).trans (congrArg _ (clockEdge_run _ hr)), ?_, ?_⟩
  · intro noEnc
    rw [encEdge_of_noHandshake (s := { s with sched := rest }) noEnc]
    obtain ⟨enc, sink, encRsps, _⟩ := decEdge_frame p { s with sched := rest }
    exact ⟨enc, sink, encRsps⟩
  · intro noDec
    rw [decEdge_encEdge_comm, decEdge_of_noHandshake (s := { s with sched := rest }) noDec]
    obtain ⟨dec, source, decRsps, _⟩ := encEdge_frame p { s with sched := rest }
    exact ⟨dec, source, decRsps⟩

/-! ### The streams only move forward (spec/20_memory.md R50) -/

/-- From `s` to `t` the sink and both lists of responses are only appended to, and the source only loses answers from its
front. -/
structure StreamsForward (s t : State) : Prop where
  sink : s.sink <+: t.sink
  source : t.source <:+ s.source
  encRsps : s.encRsps <+: t.encRsps
  decRsps : s.decRsps <+: t.decRsps

theorem StreamsForward.refl (s : State) : StreamsForward s s :=
  ⟨List.prefix_rfl, List.suffix_rfl, List.prefix_rfl, List.prefix_rfl⟩

theorem StreamsForward.trans {s t r : State} (h : StreamsForward s t) (g : StreamsForward t r) : StreamsForward s r :=
  ⟨h.sink.trans g.sink, g.source.trans h.source, h.encRsps.trans g.encRsps, h.decRsps.trans g.decRsps⟩

theorem nextAnswer_suffix (src : List Answer) : (nextAnswer src).2 <:+ src := by
  cases src with
  | nil => exact List.suffix_rfl
  | cons a rest => exact List.suffix_cons a rest

theorem encEdge_forward (p : Pins) (s : State) : StreamsForward s (encEdge p s) := by
  rcases encEdge_cases p s with e | ⟨_, v, _, e⟩ | ⟨_, _, e⟩ | ⟨_, _, e⟩ <;> rw [e]
  · exact .refl s
  · obtain ⟨_, source, sink, encRsps, decRsps, _⟩ := encAccept_frame v s
    exact ⟨sink ▸ List.prefix_rfl, source ▸ List.suffix_rfl, encRsps ▸ List.prefix_rfl, decRsps ▸ List.prefix_rfl⟩
  · exact ⟨List.prefix_append _ _, List.suffix_rfl, List.prefix_rfl, List.prefix_rfl⟩
  · exact ⟨List.prefix_rfl, List.suffix_rfl, List.prefix_append _ _, List.prefix_rfl⟩

theorem decEdge_forward (p : Pins) (s : State) : StreamsForward s (decEdge p s) := by
  rcases decEdge_cases p s with e | ⟨_, _, e⟩ | ⟨_, _, e⟩ | ⟨_, _, e⟩ | ⟨_, _, e⟩ <;> rw [e]
  · exact .refl s
  · exact ⟨List.prefix_rfl, List.suffix_rfl, List.prefix_rfl, List.prefix_rfl⟩
  · rw [decFirst_eq]; exact ⟨List.prefix_rfl, nextAnswer_suffix _, List.prefix_rfl, List.prefix_rfl⟩
  · rw [decRest_eq]; exact ⟨List.prefix_rfl, nextAnswer_suffix _, List.prefix_rfl, List.prefix_rfl⟩
  · exact ⟨List.prefix_rfl, List.suffix_rfl, List.prefix_rfl, List.prefix_append _ _⟩

theorem clockEdge_forward (p : Pins) (s : State) : StreamsForward s (clockEdge p s) := by
  cases hr : p.rst with
  | false => rw [clockEdge_run s hr]; exact (encEdge_forward p s).trans (decEdge_forward p _)
  | true => rw [clockEdge_reset s hr]; exact ⟨List.prefix_rfl, List.suffix_rfl, List.prefix_rfl, List.prefix_rfl⟩

theorem encRun_forward (k : Option WidthClass) (v : Word) (s : State) : StreamsForward s (encRun k v s) := by
  cases k with
  | none =>
    rw [encRun_none]
    exact ⟨List.prefix_rfl, List.suffix_rfl, List.prefix_append _ _, List.prefix_rfl⟩
  | some k =>
    rw [encRun_some]
    exact ⟨List.prefix_append _ _, List.suffix_rfl, List.prefix_append _ _, List.prefix_rfl⟩

theorem decRun_forward (k : WidthClass) (b : Byte) (s : State) : StreamsForward s (decRun (some k) b s) := by
  rcases decRun_cases k b s with ⟨got, left, hsrc, _, e⟩ | ⟨got, left, hsrc, _, _, e⟩ <;> rw [e]
  · exact ⟨List.prefix_rfl, hsrc ▸ List.suffix_append _ _, List.prefix_rfl, List.prefix_append _ _⟩
  · exact ⟨List.prefix_rfl, hsrc ▸ (nextAnswer_suffix left).trans (List.suffix_append _ _), List.prefix_rfl,
      List.prefix_append _ _⟩

theorem exec_forward {i : Instr} {s t : State} (e : exec i s = .next t) : StreamsForward s t := by
  rcases exec_cases i s with ⟨k, v, e', _⟩ | ⟨k, b, e', _⟩ | e' <;> cases e'.symm.trans e
  · exact encRun_forward k v s
  · exact decRun_forward k b s
  · exact .refl s

theorem decRunEmpty_forward (s : State) : StreamsForward s (decRunEmpty s) := by
  rw [decRunEmpty_eq]
  exact ⟨List.prefix_rfl, List.suffix_rfl, List.prefix_rfl, List.prefix_append _ _⟩

theorem step_forward {s t : State} (h : step s = .next t) : StreamsForward s t := by
  -- Every event starts by leaving the schedule; a `DEC` also takes the answer to its first pull.
  have taken (rest : List Event) {left : List Answer} (hl : left <:+ s.source) :
      StreamsForward s { s with sched := rest, source := left } :=
    ⟨List.prefix_rfl, hl, List.prefix_rfl, List.prefix_rfl⟩
  rcases step_cases h with ⟨_, rfl⟩ | ⟨p, rest, _, rfl⟩ | ⟨v, rest, _, e⟩ | ⟨rest, _, hdec⟩
  · exact .refl t
  · exact (taken rest List.suffix_rfl).trans (clockEdge_forward p _)
  · exact (taken rest List.suffix_rfl).trans (exec_forward e)
  · rcases hdec with ⟨_, rfl⟩ | ⟨_, _, rfl⟩ | ⟨b, i, left, _, hsrc, _, e⟩
    · exact taken rest List.suffix_rfl
    · exact (taken rest (nextAnswer_suffix _)).trans (decRunEmpty_forward _)
    · exact (taken rest (hsrc ▸ List.suffix_cons _ left)).trans (exec_forward e)

/-- Settles O43: every part of an edge and every whole operation moves the streams forward, and so does every step. -/
theorem streamsOnlyMoveForward : Obligations.StreamsOnlyMoveForward := by
  intro s t h
  obtain ⟨⟨_, sink⟩, ⟨_, source⟩, ⟨_, encRsps⟩, ⟨_, decRsps⟩⟩ := step_forward h
  exact ⟨⟨_, sink.symm⟩, ⟨_, source.symm⟩, ⟨_, encRsps.symm⟩, ⟨_, decRsps.symm⟩⟩

/-! ### Whole operations one after another (spec/20_memory.md R65, R70) -/

/-- A run goes on from the state its first step answers. -/
theorem run_succ {s t : State} (n : Nat) (h : step s = .next t) :
    Sys2Proof.core.run (n + 1) s = Sys2Proof.core.run n t := by
  have hstep : Sys2Proof.core.step s = .next t := h
  simp only [Host.Core.run, hstep]

/-! #### The encoder -/

/-- A request's variant is the operation of the class its value selects (spec/41_encoder.md R131). -/
theorem exec_decodeRequest (v : Word) (s : State) : exec (decodeRequest v) s = encOperation (select v) v s := by
  rw [decodeRequest]
  rcases select v with _ | _ | _ | _ | _ <;> rfl

/-- A whole `ENC` of the class its value selects is `encode(v)` (spec/41_encoder.md R139). -/
theorem encRun_select (v : Word) (s : State) :
    ∃ u : EncUnit, u.st = .idle ∧ encRun (select v) v s =
      { s with
        enc := u, sink := s.sink ++ (encodeRecord v).bytes
        encRsps := s.encRsps ++ [(encodeRecord v).response] } := by
  refine ⟨(encRun (select v) v s).enc, rfl, ?_⟩
  rw [encodeRecord]
  cases select v with
  | none => rw [encRun_none]; simp [EncodeResult.bytes, EncodeResult.response]
  | some k => rw [encRun_some]; simp [EncodeResult.bytes, EncodeResult.response]

/-- An `ENC` event at an idle encoder. -/
theorem step_encOp_of_idle {v : Word} {rest : List Event} {s : State} (hst : s.enc.st = .idle)
    (hsched : s.sched = .encOp v :: rest) :
    ∃ u : EncUnit, u.st = .idle ∧ step s = .next { s with
      sched := rest, enc := u, sink := s.sink ++ (encodeRecord v).bytes
      encRsps := s.encRsps ++ [(encodeRecord v).response] } := by
  obtain ⟨u, hu, hrun⟩ := encRun_select v { s with sched := rest }
  refine ⟨u, hu, ?_⟩
  calc step s = exec (decodeRequest v) { s with sched := rest } := by simp only [step, fetch, hsched]
    _ = encOperation (select v) v { s with sched := rest } := exec_decodeRequest v _
    _ = .next (encRun (select v) v { s with sched := rest }) := encOperation_of_idle _ v hst
    _ = _ := congrArg _ hrun

/-- Settles O58, by induction on the list of values. -/
theorem sinkIsTheConcatenationOfTheRecords : Obligations.SinkIsTheConcatenationOfTheRecords := by
  intro vs rest s hst
  induction vs generalizing s with
  | nil => exact ⟨{ s with sched := rest }, rfl, by simp, by simp, hst, rfl, rfl, rfl, rfl⟩
  | cons v vs ih =>
    obtain ⟨u, hu, hstep⟩ := step_encOp_of_idle (v := v) (rest := vs.map .encOp ++ rest)
      (s := { s with sched := (v :: vs).map .encOp ++ rest }) hst rfl
    obtain ⟨t, hrun, sink, encRsps, frame⟩ := ih { s with
      enc := u, sink := s.sink ++ (encodeRecord v).bytes
      encRsps := s.encRsps ++ [(encodeRecord v).response] } hu
    exact ⟨t, (run_succ _ hstep).trans hrun, by simpa using sink, by simpa using encRsps, frame⟩

/-! #### The decoder -/

/-- No byte carries two classes' tags: the class whose tag a byte carries is the one it matches. -/
theorem matchTag_of_tag {b : Byte} {k : WidthClass} (h : b &&& k.mask = k.tp) : matchTag b = some k := by
  have unique : ∀ b : Byte, ∀ k ∈ WidthClass.all, b &&& k.mask = k.tp → matchTag b = some k := by decide
  exact unique b k (mem_all k) h

/-- Byte 0 of a record that holds a class's tag matches that class. -/
theorem matchTag_byteLane_zero {k : WidthClass} {r : Word} (h : HoldsTag k r) : matchTag (byteLane r 0) = some k := by
  have byte0 : byteLane r 0 = r.setWidth 8 := (BitVec.setWidth_eq_extractLsb' (by decide)).symm
  have low := congrArg (BitVec.setWidth 8) h
  apply matchTag_of_tag
  simpa [byte0, BitVec.setWidth_and] using low

theorem lanes_eq_cons {n : Nat} (hn : 0 < n) (r : Word) : ∃ got, lanes n r = byteLane r 0 :: got := by
  obtain ⟨m, rfl⟩ := Nat.exists_eq_add_one.2 hn
  exact ⟨_, by rw [lanes, List.range_succ_eq_map, List.map_cons]⟩

theorem assemble_append (bs : List Byte) (b : Byte) :
    assemble (bs ++ [b]) = assemble bs ||| (b.setWidth 64 <<< (8 * bs.length)) := by
  induction bs with
  | nil => simp [assemble]
  | cons c bs ih =>
    rw [List.cons_append, assemble, ih, BitVec.shiftLeft_or_distrib, ← BitVec.shiftLeft_add, assemble, BitVec.or_assoc,
      List.length_cons, Nat.mul_succ]

/-- The first `n` bytes of a word, put together again, are its low `8 * n` bits. -/
theorem getLsbD_assemble_lanes (n : Nat) (r : Word) {j : Nat} (h64 : j < 64) :
    (assemble (lanes n r)).getLsbD j = (decide (j < 8 * n) && r.getLsbD j) := by
  induction n with
  | zero => simp [assemble]
  | succ n ih =>
    have hlt : (assemble (lanes n r)).toNat < 2 ^ (8 * n) := by simpa using toNat_assemble_lt (lanes n r)
    rw [lanes_succ, assemble_append, length_lanes, ← setByteLane_eq_or _ hlt, getLsbD_setByteLane, ih,
      getLsbD_byteLane]
    by_cases hlane : 8 * n ≤ j ∧ j < 8 * n + 8
    · have hj : 8 * n + (j - 8 * n) = j := by omega
      have h8 : j - 8 * n < 8 := by omega
      have hsucc : j < 8 * (n + 1) := by omega
      simp [h64, hlane, hj, h8, hsucc]
    · have hsucc : j < 8 * (n + 1) ↔ j < 8 * n := by omega
      simp only [h64, hlane, hsucc, if_false, decide_true, Bool.true_and]

/-- A word of `n` bytes is its first `n` bytes put together again. -/
theorem assemble_lanes {n : Nat} {r : Word} (h : r.toNat < 2 ^ (8 * n)) : assemble (lanes n r) = r := by
  apply word_ext
  intro j h64
  rw [getLsbD_assemble_lanes n r h64]
  by_cases hj : j < 8 * n
  · simp [hj]
  · simp [hj, getLsbD_of_lt_two_pow h (Nat.le_of_not_lt hj)]

theorem pb_add_ts_le (k : WidthClass) : k.pb + k.ts ≤ 64 := by cases k <;> decide

/-- The payload of a value's record is the value (spec/41_encoder.md R137). -/
theorem payload_tagged {k : WidthClass} {v : Word} (h : v.toNat < 2 ^ k.pb) : payload k (tagged k v) = v := by
  apply word_ext
  intro j hj
  have htag : k.tp.getLsbD (k.ts + j) = false := by
    rw [← tp_and_mask, BitVec.getLsbD_and, getLsbD_mask]; simp
  rw [payload, BitVec.getLsbD_ushiftRight, tagged, BitVec.getLsbD_or, BitVec.getLsbD_shiftLeft,
    BitVec.getLsbD_setWidth, htag]
  by_cases hpb : j < k.pb
  · have := pb_add_ts_le k
    have h64 : k.ts + j < 64 := by omega
    simp [h64]
  · simp [getLsbD_of_lt_two_pow h (Nat.le_of_not_lt hpb)]

/-- Every value below 2^61 selects a class (spec/41_encoder.md R146). -/
theorem exists_select_of_lt {v : Word} (h : v.toNat < 2 ^ 61) : ∃ k, select v = some k := by
  rw [select_eq]
  split_ifs <;> exact ⟨_, rfl⟩

/-- The variant a first byte selects is the operation of the class it matches (spec/42_decoder.md R162). -/
theorem decodeFirst_of_matchTag {k : WidthClass} {b : Byte} (h : matchTag b = some k) :
    ∃ i, decodeFirst b = .ok i ∧ ∀ s, exec i s = decOperation k b s := by
  rw [decodeFirst, h]
  cases k <;> exact ⟨_, rfl, fun _ => rfl⟩

/-- A `DEC` event at an idle decoder whose source has a byte of class `k` in front. -/
theorem step_decOp_of_byte {k : WidthClass} {b : Byte} {left : List Answer} {rest : List Event} {s : State}
    (hst : s.dec.st = .idle) (hsched : s.sched = .decOp :: rest) (hsrc : s.source = .byte b :: left)
    (hk : matchTag b = some k) : step s = .next (decRun (some k) b { s with sched := rest, source := left }) := by
  obtain ⟨i, hi, hexec⟩ := decodeFirst_of_matchTag hk
  calc step s = exec i { s with sched := rest, source := left } := by
        simp [step, fetch, hsched, fetchDec, DecUnit.reqReady, hst, State.srcPull, hsrc, hi]
    _ = decOperation k b { s with sched := rest, source := left } := hexec _
    _ = _ := decOperation_of_idle k b hst

/-- A `DEC` event at an idle decoder whose source has the record of a value, in any class that can hold it. -/
theorem step_decOp_of_record {k : WidthClass} {v : Word} {left : List Answer} {rest : List Event} {s : State}
    (hv : v.toNat < 2 ^ k.pb) (hst : s.dec.st = .idle) (hsched : s.sched = .decOp :: rest)
    (hsrc : s.source = (lanes k.cap (tagged k v)).map .byte ++ left) :
    ∃ u : DecUnit, u.st = .idle ∧ step s = .next { s with
      sched := rest, source := left, dec := u, decRsps := s.decRsps ++ [{ status := .ok, value := v }] } := by
  obtain ⟨got, hgot⟩ := lanes_eq_cons (cap_pos k) (tagged k v)
  have hlen : got.length + 1 = k.cap := by simpa using (congrArg List.length hgot).symm
  have hval : payload k (assemble (byteLane (tagged k v) 0 :: got)) = v := by
    rw [← hgot, assemble_lanes (toNat_tagged_lt hv), payload_tagged hv]
  have hmatch := matchTag_byteLane_zero (tagged_holdsTag k v)
  rw [hgot] at hsrc
  have hrun := decRun_bytes k (byteLane (tagged k v) 0) got left
    { s with sched := rest, source := got.map .byte ++ left } hlen rfl
  rw [hval] at hrun
  refine ⟨_, ?_, (step_decOp_of_byte hst hsched hsrc hmatch).trans (congrArg _ hrun)⟩
  rfl

/-- Settles O59, by induction on the list of values: each `DEC` takes the record in front of the source. -/
theorem backToBackRecordsDecodeInOrder : Obligations.BackToBackRecordsDecodeInOrder := by
  intro vs left rest s hlt hst hsrc
  induction vs generalizing s with
  | nil => exact ⟨{ s with sched := rest }, rfl, by simpa using hsrc, by simp, hst, rfl, rfl, rfl, rfl⟩
  | cons v vs ih =>
    obtain ⟨hv, hvs⟩ := List.forall_mem_cons.1 hlt
    obtain ⟨k, hk⟩ := exists_select_of_lt hv
    obtain ⟨u, hu, hstep⟩ := step_decOp_of_record (k := k) (v := v)
      (left := (vs.flatMap fun v => (encodeRecord v).bytes).map .byte ++ left)
      (rest := List.replicate vs.length .decOp ++ rest)
      (s := { s with sched := List.replicate (v :: vs).length .decOp ++ rest })
      (lt_of_select hk) hst rfl (by simpa [encodeRecord, hk, EncodeResult.bytes] using hsrc)
    obtain ⟨t, hrun, source, decRsps, frame⟩ := ih { s with
      source := (vs.flatMap fun v => (encodeRecord v).bytes).map .byte ++ left, dec := u
      decRsps := s.decRsps ++ [{ status := .ok, value := v }] } hvs hu rfl
    exact ⟨t, (run_succ _ hstep).trans hrun, source, by simpa using decRsps, frame⟩

end Sys2Proof.Machine

namespace Sys2Proof.Machine

/-! ### Codes and operations (spec/30_encoding.md R88 to R96)

`decode c = .ok i` says two things of `i`: its code is `c`, and its operand is one that selects its variant. What is
claimed of the codes follows from that equivalence and from `decode` being total. -/

/-! #### The request value -/

/-- The variants by the value's range (spec/30_encoding.md R93). -/
theorem decodeRequest_eq (v : Word) :
    decodeRequest v = if v.toNat < 2 ^ 7 then .enc1 v else if v.toNat < 2 ^ 14 then .enc2 v
      else if v.toNat < 2 ^ 29 then .enc4 v else if v.toNat < 2 ^ 61 then .enc8 v else .encErr v := by
  rw [decodeRequest, select_eq]
  split_ifs <;> rfl

theorem encode_decodeRequest (v : Word) : encode (decodeRequest v) = .request v := by
  rw [decodeRequest]
  rcases select v with _ | _ | _ | _ | _ <;> rfl

/-- The variant is the one whose range holds the value: each range starts where the one tested before it ends. -/
theorem wf_decodeRequest (v : Word) : (decodeRequest v).wf = true := by
  rw [decodeRequest_eq]
  split_ifs <;> simp [Instr.wf] <;> omega

/-! #### The first byte -/

theorem exists_matchTag (b : Byte) : ∃ k, matchTag b = some k := Option.ne_none_iff_exists'.1 (matchTag_ne_none b)

/-- A byte matches exactly the class whose tag its low bits are. -/
theorem matchTag_eq_some_iff {b : Byte} {k : WidthClass} : matchTag b = some k ↔ b &&& k.mask = k.tp :=
  ⟨tag_of_matchTag, matchTag_of_tag⟩

/-- The class a byte matches is the only one whose tag it carries. -/
theorem and_mask_eq_tp_iff {b : Byte} {k : WidthClass} (hk : matchTag b = some k) (j : WidthClass) :
    b &&& j.mask = j.tp ↔ j = k := by
  rw [← matchTag_eq_some_iff, hk, Option.some_inj, eq_comm]

/-- The variant a first byte selects has that byte as its operand, with the variant's tag in it. -/
theorem encode_and_wf_of_decodeFirst {b : Byte} {i : Instr} (h : decodeFirst b = .ok i) :
    encode i = .record b ∧ i.wf = true := by
  obtain ⟨k, hk⟩ := exists_matchTag b
  have htag := beq_iff_eq.2 (tag_of_matchTag hk)
  rw [decodeFirst, hk] at h
  cases k <;> cases h <;> exact ⟨rfl, htag⟩

/-! #### Every code -/

/-- A code's operation has that code, and is well-formed. -/
theorem encode_and_wf_of_decode {c : Code} {i : Instr} (h : decode c = .ok i) : encode i = c ∧ i.wf = true := by
  cases c with
  | request v => cases h; exact ⟨encode_decodeRequest v, wf_decodeRequest v⟩
  | record b => exact encode_and_wf_of_decodeFirst h

/-- No code is illegal (spec/30_encoding.md R90). -/
theorem exists_decode (c : Code) : ∃ i, decode c = .ok i := by
  cases c with
  | request v => exact ⟨decodeRequest v, rfl⟩
  | record b => exact decodeFirst_ok b

/-- A well-formed operation's code decodes to it: an operand in a variant's range passes none of the tests before that
variant's, and an operand with a class's tag matches that class. -/
theorem decode_encode {i : Instr} (h : i.wf = true) : decode (encode i) = .ok i := by
  cases i with
  | enc1 v =>
    have hle : v.toNat ≤ 127 := by simpa [Instr.wf] using h
    rw [encode, decode, decodeRequest_eq, if_pos (by omega)]
  | enc2 v =>
    obtain ⟨hge, hle⟩ : 128 ≤ v.toNat ∧ v.toNat ≤ 16383 := by simpa [Instr.wf] using h
    rw [encode, decode, decodeRequest_eq, if_neg (by omega), if_pos (by omega)]
  | enc4 v =>
    obtain ⟨hge, hle⟩ : 16384 ≤ v.toNat ∧ v.toNat ≤ 536870911 := by simpa [Instr.wf] using h
    rw [encode, decode, decodeRequest_eq, if_neg (by omega), if_neg (by omega), if_pos (by omega)]
  | enc8 v =>
    obtain ⟨hge, hle⟩ : 536870912 ≤ v.toNat ∧ v.toNat ≤ 2305843009213693951 := by simpa [Instr.wf] using h
    rw [encode, decode, decodeRequest_eq, if_neg (by omega), if_neg (by omega), if_neg (by omega), if_pos (by omega)]
  | encErr v =>
    have hge : 2305843009213693952 ≤ v.toNat := by simpa [Instr.wf] using h
    rw [encode, decode, decodeRequest_eq, if_neg (by omega), if_neg (by omega), if_neg (by omega), if_neg (by omega)]
  | dec1 b => rw [encode, decode, decodeFirst, matchTag_of_tag (k := .one) (eq_of_beq h)]
  | dec2 b => rw [encode, decode, decodeFirst, matchTag_of_tag (k := .two) (eq_of_beq h)]
  | dec4 b => rw [encode, decode, decodeFirst, matchTag_of_tag (k := .four) (eq_of_beq h)]
  | dec8 b => rw [encode, decode, decodeFirst, matchTag_of_tag (k := .eight) (eq_of_beq h)]

/-- What a code decodes to, in both directions. -/
theorem decode_eq_ok_iff {c : Code} {i : Instr} : decode c = .ok i ↔ encode i = c ∧ i.wf = true := by
  refine ⟨encode_and_wf_of_decode, ?_⟩
  rintro ⟨rfl, hwf⟩
  exact decode_encode hwf

/-- Settles O6, by the cases of `decode_encode`. -/
theorem decodeOfEncodeIsTheOperation : Obligations.DecodeOfEncodeIsTheOperation := fun _ hwf => decode_encode hwf

/-- Settles O7: `decode` is total, and answers only well-formed operations of that code. -/
theorem everyCodeNamesOneWellFormedOperation : Obligations.EveryCodeNamesOneWellFormedOperation := by
  intro c
  obtain ⟨i, hi⟩ := exists_decode c
  obtain ⟨hcode, hwf⟩ := decode_eq_ok_iff.1 hi
  exact ⟨i, hi, hwf, hcode⟩

/-- Settles O9: each operation has that code, and its operand selects it. -/
theorem wordsOfTheSpecDecode : Obligations.WordsOfTheSpecDecode := by
  refine ⟨?_, ?_, ?_, ?_, ?_, ?_, ?_, ?_, ?_⟩ <;> exact decode_eq_ok_iff.2 ⟨rfl, by decide⟩

/-! #### The opcode table (spec/30_encoding.md R96) -/

/-- The bits from `n` up are all 0 exactly below `2 ^ n`: an `ENC` row's mask is the upper bound of its range. -/
theorem and_allOnes_shiftLeft_eq_zero_iff (v : Word) (n : Nat) :
    v &&& BitVec.allOnes 64 <<< n = 0#64 ↔ v.toNat < 2 ^ n := by
  have bits : ∀ j, j < 64 → (v &&& BitVec.allOnes 64 <<< n).getLsbD j = (v.getLsbD j && decide (n ≤ j)) := by
    intro j hj
    rw [BitVec.getLsbD_and, BitVec.getLsbD_shiftLeft, BitVec.getLsbD_allOnes]
    by_cases hn : n ≤ j
    · have hsub : j - n < 64 := by omega
      simp [hj, hn, hsub]
    · simp [hn]
  constructor
  · intro h
    apply toNat_lt_two_pow
    intro j hn hj
    have hbit := bits j hj
    rw [h, decide_eq_true hn, Bool.and_true, BitVec.getLsbD_zero] at hbit
    exact hbit.symm
  · intro h
    apply word_ext
    intro j hj
    rw [bits j hj]
    by_cases hn : n ≤ j
    · simp [getLsbD_of_lt_two_pow h hn]
    · simp [hn]

/-- Settles O8: an `ENC` row's test is its range's upper bound, and a `DEC` row's is its variant's well-formedness. -/
theorem opcodeTableRowsAreFirstFit : Obligations.OpcodeTableRowsAreFirstFit := by
  constructor
  · intro v
    have row := and_allOnes_shiftLeft_eq_zero_iff v
    have row1 : v &&& 0xFFFFFFFFFFFFFF80#64 = 0#64 ↔ v.toNat < 2 ^ 7 := row 7
    have row2 : v &&& 0xFFFFFFFFFFFFC000#64 = 0#64 ↔ v.toNat < 2 ^ 14 := row 14
    have row4 : v &&& 0xFFFFFFFFE0000000#64 = 0#64 ↔ v.toNat < 2 ^ 29 := row 29
    have row8 : v &&& 0xE000000000000000#64 = 0#64 ↔ v.toNat < 2 ^ 61 := row 61
    simp only [row1, row2, row4, row8]
    exact decodeRequest_eq v
  · intro b
    exact ⟨fun h => decode_encode (i := .dec1 b) (beq_iff_eq.2 h), fun h => decode_encode (i := .dec2 b) (beq_iff_eq.2 h),
      fun h => decode_encode (i := .dec4 b) (beq_iff_eq.2 h), fun h => decode_encode (i := .dec8 b) (beq_iff_eq.2 h)⟩

/-! #### A step on a whole operation -/

theorem step_encOp {v : Word} {rest : List Event} {s : State} (hsched : s.sched = .encOp v :: rest) :
    step s = exec (decodeRequest v) { s with sched := rest } := by
  simp only [step, fetch, hsched]

theorem step_decOp_of_decodeFirst {b : Byte} {i : Instr} {left : List Answer} {rest : List Event} {s : State}
    (hst : s.dec.st = .idle) (hsched : s.sched = .decOp :: rest) (hsrc : s.source = .byte b :: left)
    (hi : decodeFirst b = .ok i) : step s = exec i { s with sched := rest, source := left } := by
  simp [step, fetch, hsched, fetchDec, DecUnit.reqReady, hst, State.srcPull, hsrc, hi]

/-- Settles O23: the operation a step runs is the one decoded, and what is decoded is well-formed. -/
theorem stepRunsTheDecodedOperation : Obligations.StepRunsTheDecodedOperation := by
  constructor
  · intro v i rest s hsched hi
    obtain ⟨_, hwf⟩ := decode_eq_ok_iff.1 hi
    obtain rfl : decodeRequest v = i := Except.ok.inj hi
    exact ⟨hwf, step_encOp hsched⟩
  · intro b i left rest s hst hsched hsrc hi
    obtain ⟨_, hwf⟩ := decode_eq_ok_iff.1 hi
    exact ⟨hwf, step_decOp_of_decodeFirst hst hsched hsrc hi⟩

/-! ### The format a first byte selects (spec/30_encoding.md R88, R89) -/

/-- Every mask lies in the low three bits. -/
theorem and_low3_and_mask (b : Byte) (k : WidthClass) : b &&& 7#8 &&& k.mask = b &&& k.mask := by
  have hmask : 7#8 &&& k.mask = k.mask := by cases k <;> rfl
  rw [BitVec.and_assoc, hmask]

theorem and_low3_eq_ofNat (b : Byte) : b &&& 7#8 = BitVec.ofNat 8 (b.toNat % 8) := by
  apply BitVec.eq_of_toNat_eq
  rw [BitVec.toNat_and, show (7#8).toNat = 2 ^ 3 - 1 from rfl, Nat.and_two_pow_sub_one_eq_mod, BitVec.toNat_ofNat]
  omega

/-- The lookup looks at the low three bits only. -/
theorem matchTag_eq_low3 (b : Byte) : matchTag b = matchTag (BitVec.ofNat 8 (b.toNat % 8)) := by
  rw [← and_low3_eq_ofNat]
  simp only [matchTag, and_low3_and_mask]

/-- The resolver looks at the low three bits only. -/
theorem resolve_eq_low3 (b : Byte) : resolve b = resolve (BitVec.ofNat 8 (b.toNat % 8)) := by
  have low : ∀ n ≤ 3, (b &&& 7#8).extractLsb' 0 n = b.extractLsb' 0 n := by
    intro n hn
    apply BitVec.eq_of_getLsbD_eq
    intro j hj
    have ones : ∀ j < 3, (7#8).getLsbD j = true := by decide
    simp [hj, ones j (by omega)]
  rw [← and_low3_eq_ofNat]
  simp only [resolve, low 1 (by decide), low 2 (by decide), low 3 (by decide)]

/-- In `q` periods a periodic test passes `q` times as often as in one. -/
theorem countP_range_mul_of_periodic {p : Nat → Bool} {n : Nat} (hp : ∀ m, p (n + m) = p m) (q : Nat) :
    (List.range (n * q)).countP p = q * (List.range n).countP p := by
  have shift : p ∘ (n + ·) = p := funext hp
  induction q with
  | zero => simp
  | succ q ih =>
    rw [Nat.mul_succ, Nat.add_comm, List.range_add, List.countP_append, List.countP_map, shift, ih, Nat.succ_mul,
      Nat.add_comm]

/-- The 256 bytes are 32 times the eight patterns of the low three bits. -/
theorem countP_matchTag (k : WidthClass) :
    (((List.range 256).map (BitVec.ofNat 8)).countP fun b => matchTag b == some k) =
      32 * (List.range 8).countP fun m => matchTag (BitVec.ofNat 8 m) == some k := by
  rw [List.countP_map]
  refine countP_range_mul_of_periodic (n := 8) (fun m => ?_) 32
  have low : (BitVec.ofNat 8 (8 + m)).toNat % 8 = (BitVec.ofNat 8 m).toNat % 8 := by
    rw [BitVec.toNat_ofNat, BitVec.toNat_ofNat]
    omega
  simp only [Function.comp_apply]
  rw [matchTag_eq_low3, low, ← matchTag_eq_low3]

/-- Settles O4: the class a byte matches is unique, and the low three bits decide it. -/
theorem everyFirstByteMatchesExactlyOneClass : Obligations.EveryFirstByteMatchesExactlyOneClass := by
  constructor
  · intro b
    obtain ⟨k, hk⟩ := exists_matchTag b
    exact ⟨k, hk, and_mask_eq_tp_iff hk⟩
  · simp only [countP_matchTag]
    decide

/-- A search finds the one element that passes the test, wherever in the list it stands. -/
theorem find?_eq_some_of_unique {α : Type} {p : α → Bool} {l : List α} {a : α} (hmem : a ∈ l)
    (hp : ∀ x, p x = true ↔ x = a) : l.find? p = some a := by
  cases hfind : l.find? p with
  | none => exact absurd ((hp a).2 rfl) (List.find?_eq_none.1 hfind a hmem)
  | some x => rw [(hp x).1 (List.find?_some hfind)]

/-- Settles O5: the lookup and the resolver depend on the low three bits only, which leaves eight patterns; the order of
the tests does not matter because one class passes. -/
theorem lowThreeBitsSelectTheFormatInAnyOrder : Obligations.LowThreeBitsSelectTheFormatInAnyOrder := by
  intro b
  have hlt : b.toNat % 8 < 8 := Nat.mod_lt _ (by decide)
  refine ⟨?_, fun order hperm => ?_, ?_⟩
  · have pattern : ∀ m < 8, matchTag (BitVec.ofNat 8 m) =
        [some .eight, some .one, some .two, some .one, some .four, some .one, some .two, some .one][m]! := by decide
    rw [matchTag_eq_low3]
    exact pattern _ hlt
  · obtain ⟨k, hk⟩ := exists_matchTag b
    rw [hk]
    exact find?_eq_some_of_unique (hperm.mem_iff.2 (mem_all k)) fun j => beq_iff_eq.trans (and_mask_eq_tp_iff hk j)
  · have pattern : ∀ m < 8, resolve (BitVec.ofNat 8 m) =
        (matchTag (BitVec.ofNat 8 m)).map fun k => { k := k, cap := k.cap, ts := k.ts } := by decide
    rw [resolve_eq_low3, matchTag_eq_low3]
    exact pattern _ hlt

/-! ### The bits of a record (spec/30_encoding.md R87) -/

theorem getLsbD_tp_of_ts_le {k : WidthClass} {m : Nat} (h : k.ts ≤ m) : k.tp.getLsbD m = false := by
  rw [← tp_and_mask, BitVec.getLsbD_and, getLsbD_mask]
  simp [h]

theorem ts_le (k : WidthClass) : k.ts ≤ 3 := by cases k <;> decide

/-- The tag below bit `ts`, the value's bits from there on. -/
theorem getLsbD_tagged (k : WidthClass) (v : Word) {m : Nat} (hm : m < 64) :
    (tagged k v).getLsbD m = if m < k.ts then k.tp.getLsbD m else v.getLsbD (m - k.ts) := by
  rw [tagged, BitVec.getLsbD_or, BitVec.getLsbD_shiftLeft, BitVec.getLsbD_setWidth]
  by_cases h : m < k.ts
  · simp [h, hm]
  · simp [h, hm, getLsbD_tp_of_ts_le (Nat.le_of_not_lt h)]

theorem lanes_getElem?_eq_some_iff {n i : Nat} {x : Word} {b : Byte} :
    (lanes n x)[i]? = some b ↔ i < n ∧ byteLane x i = b := by
  simp [List.getElem?_eq_some_iff, lanes]

/-- Settles O45: bit `j` of byte `i` is bit `8 * i + j` of the tagged word, and the tag lies within byte 0. -/
theorem recordBytesAreTagThenValueBits : Obligations.RecordBytesAreTagThenValueBits := by
  intro k v _
  refine ⟨length_lanes _ _, fun i j b hget hj => ?_⟩
  obtain ⟨hi, rfl⟩ := lanes_getElem?_eq_some_iff.1 hget
  have h64 : 8 * i + j < 64 := by have := cap_le k; omega
  rw [getLsbD_byteLane, getLsbD_tagged k v h64, decide_eq_true hj, Bool.true_and]
  by_cases htag : 8 * i + j < k.ts
  · have byte0 : i = 0 := by have := ts_le k; omega
    simp [byte0]
  · simp only [htag, if_false]

end Sys2Proof.Machine

namespace Sys2Proof.Machine

/-! ### The width class table (spec/40_width_class_lut.md R112, R113, R115) -/

theorem cap_eq_two_pow_index (k : WidthClass) : k.cap = 2 ^ k.index.toNat := by cases k <;> rfl

theorem pb_eq_cap_bits_sub_ts (k : WidthClass) : k.pb = 8 * k.cap - k.ts := by cases k <;> rfl

theorem pb_le (k : WidthClass) : k.pb ≤ 61 := by cases k <;> decide

/-- The tag takes one bit more in each class, up to three. -/
theorem ts_eq_min (k : WidthClass) : k.ts = min (k.index.toNat + 1) 3 := by cases k <;> rfl

theorem cap_lt_of_index_lt {j k : WidthClass} (h : j.index.toNat < k.index.toNat) : j.cap < k.cap := by
  rw [cap_eq_two_pow_index, cap_eq_two_pow_index]
  exact Nat.pow_lt_pow_right (by decide) h

theorem ts_le_of_index_lt {j k : WidthClass} (h : j.index.toNat < k.index.toNat) : j.ts ≤ k.ts := by
  rw [ts_eq_min, ts_eq_min]
  omega

/-- One byte more of capacity outweighs any tag. -/
theorem pb_lt_of_index_lt {j k : WidthClass} (h : j.index.toNat < k.index.toNat) : j.pb < k.pb := by
  have hcap := cap_lt_of_index_lt h
  have hts := ts_le k
  rw [pb_eq_cap_bits_sub_ts, pb_eq_cap_bits_sub_ts]
  omega

/-- Settles O1: the order of the columns follows from the class index, through `cap = 2^k` and `pb = 8*cap - ts`. -/
theorem tableColumnsAreTiedAndOrdered : Obligations.TableColumnsAreTiedAndOrdered := by
  refine ⟨fun k => ⟨pb_eq_cap_bits_sub_ts k, cap_eq_two_pow_index k, ?_⟩, rfl, rfl, rfl, rfl, rfl,
    fun _ _ h => ⟨cap_lt_of_index_lt h, ts_le_of_index_lt h, pb_lt_of_index_lt h⟩⟩
  exact Nat.sub_le_sub_right (Nat.pow_le_pow_right (by decide) (pb_le k)) 1

/-- Settles O2: in the chain of comparisons, each range fails the tests before its own class and passes that one. -/
theorem valueRangeSelectsTheClass : Obligations.ValueRangeSelectsTheClass := by
  intro v
  rw [select_eq]
  refine ⟨fun hi => ?_, fun lo hi => ?_, fun lo hi => ?_, fun lo hi => ?_, fun lo => ?_⟩
  · rw [if_pos (by omega)]
  · rw [if_neg (by omega), if_pos (by omega)]
  · rw [if_neg (by omega), if_neg (by omega), if_pos (by omega)]
  · rw [if_neg (by omega), if_neg (by omega), if_neg (by omega), if_pos (by omega)]
  · rw [if_neg (by omega), if_neg (by omega), if_neg (by omega), if_neg (by omega)]

end Sys2Proof.Machine

namespace Sys2Proof.Machine

/-! ### Any number of edges, as one function -/

/-- What the edges with these pins do, one after the other. -/
def afterEdges (ps : List Pins) (s : State) : State := ps.foldl (fun t p => clockEdge p t) s

@[simp] theorem afterEdges_nil (s : State) : afterEdges [] s = s := rfl

@[simp] theorem afterEdges_cons (p : Pins) (ps : List Pins) (s : State) :
    afterEdges (p :: ps) s = afterEdges ps (clockEdge p s) := rfl

/-- An edge does not look at the schedule. -/
theorem clockEdge_withSched (p : Pins) (es : List Event) (s : State) :
    clockEdge p { s with sched := es } = { clockEdge p s with sched := es } := by
  have henc : EncAgree (clockEdge p { s with sched := es }) (clockEdge p s) :=
    EncAgree.clockEdge ⟨rfl, rfl, rfl, rfl⟩ ⟨rfl, rfl, rfl, rfl⟩
  have hdec : DecAgree (clockEdge p { s with sched := es }) (clockEdge p s) :=
    DecAgree.clockEdge ⟨rfl, rfl, rfl, rfl⟩ ⟨rfl, rfl, rfl, rfl⟩
  exact eq_of_encAgree_of_decAgree ⟨henc.enc, henc.sink, henc.encRsps, henc.fresh⟩
    ⟨hdec.dec, hdec.source, hdec.decRsps, hdec.fresh⟩ (clockEdge_sched _ _)

/-- A run over edges ends in what the edges do, with the events after them still to come. -/
theorem run_edges {ps : List Pins} {rest : List Event} {s : State} (h : s.sched = ps.map .edge ++ rest) :
    Sys2Proof.core.run ps.length s = .next (afterEdges ps { s with sched := rest }) := by
  induction ps generalizing s with
  | nil => subst h; exact run_zero s
  | cons p ps ih =>
    rw [List.length_cons, run_succ_edge _ h, ih (clockEdge_sched _ _), afterEdges_cons, clockEdge_withSched p rest,
      clockEdge_withSched p]

theorem afterEdges_replicate_of_fixed {p : Pins} {s : State} (h : clockEdge p s = s) (n : Nat) :
    afterEdges (List.replicate n p) s = s := by
  induction n with
  | zero => rfl
  | succ n ih => rw [List.replicate_succ, afterEdges_cons, h, ih]

/-! ### A whole operation is its transfers (spec/41_encoder.md R142, spec/42_decoder.md R173) -/

/-! #### The encoder -/

theorem encEdge_of_request {p : Pins} {v : Word} {s : State} (hst : s.enc.st = .idle) (hreq : p.encReq = some v) :
    encEdge p s = encAccept v s := by
  simp only [encEdge, hst, hreq]

theorem encEdge_of_idle {p : Pins} {s : State} (hst : s.enc.st = .idle) (hreq : p.encReq = none) :
    encEdge p s = s := by
  simp only [encEdge, hst, hreq]

theorem encEdge_of_emit {p : Pins} {s : State} (hst : s.enc.st = .emit) (hready : p.snkReady = true) :
    encEdge p s = encEmit s := by
  simp only [encEdge, hst, hready, if_true]

theorem encEdge_of_resp {p : Pins} {s : State} (hst : s.enc.st = .resp) (hready : p.encRspReady = true) :
    encEdge p s = encRespond s := by
  simp only [encEdge, hst, hready, if_true]

/-- An edge on which the environment does nothing at the decoder's ports is the encoder's part of it. -/
theorem clockEdge_eq_encEdge {p : Pins} {s : State} (hrst : p.rst = false) (hreq : p.decReqValid = false)
    (hsrc : p.srcValid = false) (hrsp : p.decRspReady = false) : clockEdge p s = encEdge p s := by
  rw [clockEdge_run s hrst]
  exact decEdge_of_noHandshake ⟨by simp [hreq], by simp [hsrc], by simp [hrsp]⟩

theorem clockEdge_requestEncode {v : Word} {s : State} (hst : s.enc.st = .idle) :
    clockEdge (requestEncode v) s = encAccept v s :=
  (clockEdge_eq_encEdge rfl rfl rfl rfl).trans (encEdge_of_request hst rfl)

theorem clockEdge_serveEncoder (s : State) : clockEdge serveEncoder s = encEdge serveEncoder s :=
  clockEdge_eq_encEdge rfl rfl rfl rfl

/-- Serving an encoder that is done emitting after at most `n` bytes: the sink takes them, then the response is taken, and
from then on the edges change nothing. -/
theorem afterEdges_serveEncoder {n : Nat} {s : State} (h : (encEmitAll n s).enc.st = .resp) :
    afterEdges (List.replicate (n + 1) serveEncoder) s = encRespond (encEmitAll n s) := by
  induction n generalizing s with
  | zero => exact (clockEdge_serveEncoder s).trans (encEdge_of_resp h rfl)
  | succ n ih =>
    rw [List.replicate_succ, afterEdges_cons, clockEdge_serveEncoder]
    by_cases hst : s.enc.st = .emit
    · rw [encEmitAll_succ hst] at h ⊢
      rw [encEdge_of_emit hst rfl, ih h]
    · rw [encEmitAll_stop hst] at h ⊢
      rw [encEdge_of_resp h rfl]
      exact afterEdges_replicate_of_fixed ((clockEdge_serveEncoder _).trans (encEdge_of_idle rfl rfl)) _

/-- An accepted request has handed over its whole record after at most `BUF_BYTES` bytes. -/
theorem encEmitAll_encAcceptAs_st (k : Option WidthClass) (v : Word) (s : State) :
    (encEmitAll Config.bufBytes (encAcceptAs k v s)).enc.st = .resp := by
  rcases k with _ | _ | _ | _ | _ <;> rfl

/-- A request and nine served edges are a whole `ENC`. -/
theorem afterEdges_requestEncode (v : Word) {s : State} (hst : s.enc.st = .idle) :
    afterEdges (requestEncode v :: List.replicate 9 serveEncoder) s = encRun (select v) v s := by
  rw [afterEdges_cons, clockEdge_requestEncode hst]
  exact afterEdges_serveEncoder (encEmitAll_encAcceptAs_st (select v) v s)

theorem step_encOp_eq_encRun {v : Word} {rest : List Event} {s : State} (hst : s.enc.st = .idle)
    (hsched : s.sched = .encOp v :: rest) : step s = .next (encRun (select v) v { s with sched := rest }) := by
  rw [step_encOp hsched, exec_decodeRequest, encOperation_of_idle _ v (s := { s with sched := rest }) hst]

/-! #### The decoder -/

theorem decEdge_of_request {p : Pins} {s : State} (hst : s.dec.st = .idle) (hreq : p.decReqValid = true) :
    decEdge p s = decAccept s := by
  simp only [decEdge, hst, hreq, if_true]

theorem decEdge_of_idle {p : Pins} {s : State} (hst : s.dec.st = .idle) (hreq : p.decReqValid = false) :
    decEdge p s = s := by
  simp [decEdge, hst, hreq]

theorem decEdge_of_first {p : Pins} {s : State} (hst : s.dec.st = .first) (hvalid : p.srcValid = true) :
    decEdge p s = decFirst s.srcPull.1 s.srcPull.2 := by
  simp only [decEdge, hst, hvalid, if_true]

theorem decEdge_of_rest {p : Pins} {s : State} (hst : s.dec.st = .rest) (hvalid : p.srcValid = true) :
    decEdge p s = decRest s.srcPull.1 s.srcPull.2 := by
  simp only [decEdge, hst, hvalid, if_true]

theorem decEdge_of_resp {p : Pins} {s : State} (hst : s.dec.st = .resp) (hready : p.decRspReady = true) :
    decEdge p s = decRespond s := by
  simp only [decEdge, hst, hready, if_true]

/-- An edge on which the environment does nothing at the encoder's ports is the decoder's part of it. -/
theorem clockEdge_eq_decEdge {p : Pins} {s : State} (hrst : p.rst = false) (hreq : p.encReq = none)
    (hsnk : p.snkReady = false) (hrsp : p.encRspReady = false) : clockEdge p s = decEdge p s := by
  rw [clockEdge_run s hrst, encEdge_of_noHandshake ⟨by simp [hreq], by simp [hsnk], by simp [hrsp]⟩]

theorem clockEdge_requestDecode {s : State} (hst : s.dec.st = .idle) : clockEdge requestDecode s = decAccept s :=
  (clockEdge_eq_decEdge rfl rfl rfl rfl).trans (decEdge_of_request hst rfl)

theorem clockEdge_serveDecoder (s : State) : clockEdge serveDecoder s = decEdge serveDecoder s :=
  clockEdge_eq_decEdge rfl rfl rfl rfl

/-- Serving a decoder that is done after at most `n` further bytes: the source answers the pulls, then the response is
taken, and from then on the edges change nothing. -/
theorem afterEdges_serveDecoder {n : Nat} {s : State} (h : (decRestAll n s).dec.st = .resp) :
    afterEdges (List.replicate (n + 1) serveDecoder) s = decRespond (decRestAll n s) := by
  induction n generalizing s with
  | zero => exact (clockEdge_serveDecoder s).trans (decEdge_of_resp h rfl)
  | succ n ih =>
    rw [List.replicate_succ, afterEdges_cons, clockEdge_serveDecoder]
    by_cases hst : s.dec.st = .rest
    · rw [decRestAll_succ hst] at h ⊢
      rw [decEdge_of_rest hst rfl, ih h]
    · rw [decRestAll_stop hst] at h ⊢
      rw [decEdge_of_resp h rfl]
      exact afterEdges_replicate_of_fixed ((clockEdge_serveDecoder _).trans (decEdge_of_idle rfl rfl)) _

/-- A decoder whose first pull was answered is done after at most `BUF_BYTES - 1` further bytes. -/
theorem decRestAll_decFirst_st (a : Answer) (s : State) :
    (decRestAll (Config.bufBytes - 1) (decFirst a (decAccept s))).dec.st = .resp := by
  cases a with
  | exhausted => rfl
  | byte b =>
    obtain ⟨k, hk⟩ := exists_matchTag b
    rw [decFirst_byte, hk, decFirstAs]
    by_cases hone : k.cap = 1
    · rw [if_pos hone]; rfl
    · rw [if_neg hone]
      have hpos := cap_pos k
      have hcap := cap_le k
      obtain ⟨u, hrun, hst, _⟩ := decRestAll_decodeTail 6 (k.cap - 2)
        { s with dec := { st := .rest, buf := setByteLane 0 0 b, k := k, idx := 1, status := s.dec.status } }
        (by omega) rfl (show 1 + (k.cap - 2) + 1 = k.cap by omega) (setByteLane_zero b ▸ byte_lt b)
      exact (congrArg (fun t : State => t.dec.st) hrun).trans hst

/-- A request and nine served edges are a whole `DEC`: the request, the first pull, and what follows its answer. -/
theorem afterEdges_requestDecode {s : State} (hst : s.dec.st = .idle) :
    afterEdges (requestDecode :: List.replicate 9 serveDecoder) s =
      decRespond (decRestAll (Config.bufBytes - 1) (decFirst s.srcPull.1 (decAccept s.srcPull.2))) := by
  rw [afterEdges_cons, clockEdge_requestDecode hst, List.replicate_succ, afterEdges_cons, clockEdge_serveDecoder,
    decEdge_of_first rfl rfl]
  exact afterEdges_serveDecoder (decRestAll_decFirst_st _ s.srcPull.2)

/-- A `DEC` event at an idle decoder whose first pull is answered `Exhausted`. -/
theorem step_decOp_of_exhausted {rest : List Event} {s : State} (hst : s.dec.st = .idle)
    (hsched : s.sched = .decOp :: rest) (hsrc : (nextAnswer s.source).1 = .exhausted) :
    step s = .next (decRunEmpty { s with sched := rest, source := (nextAnswer s.source).2 }) := by
  simp only [step, fetch, hsched, fetchDec, DecUnit.reqReady, hst, decide_true, if_true, State.srcPull, hsrc]

/-- A whole `DEC` is its transfers: an `Exhausted` ends it at once, a byte goes on as the class it matches. -/
theorem step_decOp_of_idle {rest : List Event} {s : State} (hst : s.dec.st = .idle)
    (hsched : s.sched = .decOp :: rest) :
    step s = .next (decRespond (decRestAll (Config.bufBytes - 1)
      (decFirst { s with sched := rest }.srcPull.1 (decAccept { s with sched := rest }.srcPull.2)))) := by
  cases ha : (nextAnswer s.source).1 with
  | exhausted =>
    rw [step_decOp_of_exhausted hst hsched ha, srcPull_answer, ha, decRestAll_stop (by simp)]
    rfl
  | byte b =>
    have hsrc : s.source = .byte b :: (nextAnswer s.source).2 := by cases h : s.source <;> simp_all
    obtain ⟨k, hk⟩ := exists_matchTag b
    rw [step_decOp_of_byte hst hsched hsrc hk, srcPull_answer, ha, decFirst_byte, hk]
    rfl

/-- Settles O55, unit by unit: the ten edges and the whole operation are the same transfers. -/
theorem transferByTransferIsTheOperation : Obligations.TransferByTransferIsTheOperation := by
  constructor
  · intro v rest s hst
    rw [step_encOp_eq_encRun (s := { s with sched := .encOp v :: rest }) hst rfl,
      ← afterEdges_requestEncode v (s := { s with sched := rest }) hst]
    exact run_edges (ps := requestEncode v :: List.replicate 9 serveEncoder) rfl
  · intro rest s hst
    rw [step_decOp_of_idle (s := { s with sched := .decOp :: rest }) hst rfl,
      ← afterEdges_requestDecode (s := { s with sched := rest }) hst]
    exact run_edges (ps := requestDecode :: List.replicate 9 serveDecoder) rfl

end Sys2Proof.Machine

namespace Sys2Proof.Machine

/-! ### An `ENC` under any stalls (spec/41_encoder.md R142, R145) -/

/-- How far an `ENC` with request `v`, accepted in `s`, has come in `t`: what the sink and the responses have more than in
`s`, and what the encoder's registers hold for the transfers still to come. -/
inductive EncProgress (v : Word) (s t : State) : Prop where
  | emitting (k : WidthClass) (selected : select v = some k) (st : t.enc.st = .emit) (buf : t.enc.buf = tagged k v)
      (cap : t.enc.cap = k.capBits) (status : t.enc.status = .ok) (idx_lt : t.enc.idx.toNat < k.cap)
      (sink : t.sink = s.sink ++ lanes t.enc.idx.toNat (tagged k v)) (encRsps : t.encRsps = s.encRsps)
  | responding (st : t.enc.st = .resp) (response : t.enc.response = (encodeRecord v).response)
      (sink : t.sink = s.sink ++ (encodeRecord v).bytes) (encRsps : t.encRsps = s.encRsps)
  | finished (st : t.enc.st = .idle) (sink : t.sink = s.sink ++ (encodeRecord v).bytes)
      (encRsps : t.encRsps = s.encRsps ++ [(encodeRecord v).response])

theorem encodeRecord_of_select {v : Word} {k : WidthClass} (h : select v = some k) :
    encodeRecord v = .ok (lanes k.cap (tagged k v)) := by
  rw [encodeRecord, h]

theorem encodeRecord_of_select_none {v : Word} (h : select v = none) : encodeRecord v = .rangeError := by
  rw [encodeRecord, h]

/-- The progress is one of the encoder's part of the state. -/
theorem EncProgress.of_encAgree {v : Word} {s t t' : State} (h : EncProgress v s t) (agree : EncAgree t' t) :
    EncProgress v s t' := by
  obtain ⟨encEq, sinkEq, rspsEq, _⟩ := agree
  cases h with
  | emitting k hk st buf cap status idx_lt sink encRsps =>
    rw [← encEq] at st buf cap status idx_lt sink
    exact .emitting k hk st buf cap status idx_lt (sinkEq.trans sink) (rspsEq.trans encRsps)
  | responding st response sink encRsps =>
    exact .responding (encEq ▸ st) (encEq ▸ response) (sinkEq.trans sink) (rspsEq.trans encRsps)
  | finished st sink encRsps => exact .finished (encEq ▸ st) (sinkEq.trans sink) (rspsEq.trans encRsps)

/-- E-ACCEPT starts the operation. -/
theorem encProgress_encAccept (v : Word) (s : State) : EncProgress v s (encAccept v s) := by
  obtain ⟨_, _, sink, encRsps, _⟩ := encAccept_frame v s
  cases hk : select v with
  | none =>
    have henc : encodeRecord v = .rangeError := encodeRecord_of_select_none hk
    refine .responding ?_ ?_ ?_ encRsps
    · rw [encAccept, hk]; rfl
    · rw [encAccept, hk, henc]; rfl
    · rw [sink, henc]; exact (List.append_nil _).symm
  | some k =>
    have henc : (encAccept v s).enc = { st := .emit, buf := tagged k v, cap := k.capBits, idx := 0, status := .ok } := by
      rw [encAccept, hk]; rfl
    refine .emitting k hk ?_ ?_ ?_ ?_ ?_ ?_ encRsps <;> rw [henc]
    · exact cap_pos k
    · rw [sink]; exact (List.append_nil _).symm

/-- The response of a record that has been handed over counts its bytes. -/
theorem encResponse_of_record {k : WidthClass} {v : Word} {u : EncUnit} (hk : select v = some k)
    (hidx : u.idx = k.capBits) (hok : u.status = .ok) : u.response = (encodeRecord v).response := by
  rw [encodeRecord_of_select hk, EncUnit.response, hidx, hok, EncodeResult.response, length_lanes, ← toNat_capBits,
    BitVec.ofNat_toNat]

/-- E-EMIT hands over the next byte, and the last one leads to the response. -/
theorem encProgress_encEmit {v : Word} {s t : State} (hst : t.enc.st = .emit) (h : EncProgress v s t) :
    EncProgress v s (encEmit t) := by
  cases h with
  | emitting k hk _ buf cap status idx_lt sink encRsps =>
    have hidx : (t.enc.idx + 1).toNat = t.enc.idx.toNat + 1 := toNat_idx_succ idx_lt
    have hsink : (encEmit t).sink = s.sink ++ lanes (t.enc.idx + 1).toNat (tagged k v) := by
      rw [encEmit_sink, sink, hidx, lanes_succ, EncUnit.sinkByte, buf, List.append_assoc]
    by_cases hlast : t.enc.idx + 1 = t.enc.cap
    · have henc := encEmit_enc_last hlast
      refine .responding ?_ (encResponse_of_record hk ?_ ?_) ?_ encRsps
      · rw [henc]
      · rw [henc]; exact hlast.trans cap
      · rw [henc]; exact status
      · rw [hsink, hlast, cap, encodeRecord_of_select hk, toNat_capBits]; rfl
    · have henc := encEmit_enc_more hlast
      have hmore : (t.enc.idx + 1).toNat < k.cap := by
        have hne : ¬ t.enc.idx.toNat + 1 = k.cap := fun e => hlast (((idx_succ_eq_capBits idx_lt).2 e).trans cap.symm)
        omega
      refine .emitting k hk ?_ ?_ ?_ ?_ ?_ ?_ encRsps <;> rw [henc]
      · exact hst
      · exact buf
      · exact cap
      · exact status
      · exact hmore
      · exact hsink
  | responding st => exact absurd (hst.symm.trans st) (by decide)
  | finished st => exact absurd (hst.symm.trans st) (by decide)

/-- E-RESPOND ends the operation. -/
theorem encProgress_encRespond {v : Word} {s t : State} (hst : t.enc.st = .resp) (h : EncProgress v s t) :
    EncProgress v s (encRespond t) := by
  cases h with
  | emitting _ _ st => exact absurd (hst.symm.trans st) (by decide)
  | responding _ response sink encRsps =>
    exact .finished rfl sink (by rw [encRespond_encRsps, encRsps, response])
  | finished st => exact absurd (hst.symm.trans st) (by decide)

/-- An edge without reset and without a request keeps the operation going, stalled or not. -/
theorem EncProgress.clockEdge {v : Word} {s t : State} {p : Pins} (h : EncProgress v s t) (hrst : p.rst = false)
    (hreq : p.encReq = none) : EncProgress v s (clockEdge p t) := by
  rw [clockEdge_run t hrst]
  refine EncProgress.of_encAgree ?_ (encAgree_decEdge_self p (encEdge p t))
  rcases encEdge_cases p t with e | ⟨_, w, hw, _⟩ | ⟨hst, _, e⟩ | ⟨hst, _, e⟩
  · rw [e]; exact h
  · exact absurd (hreq.symm.trans hw) nofun
  · rw [e]; exact encProgress_encEmit hst h
  · rw [e]; exact encProgress_encRespond hst h

theorem EncProgress.afterEdges {v : Word} {s t : State} {ps : List Pins} (h : EncProgress v s t)
    (hps : ∀ p ∈ ps, p.rst = false ∧ p.encReq = none) : EncProgress v s (afterEdges ps t) := by
  induction ps generalizing t with
  | nil => exact h
  | cons p ps ih =>
    obtain ⟨⟨hrst, hreq⟩, hps⟩ := List.forall_mem_cons.1 hps
    exact ih (h.clockEdge hrst hreq) hps

theorem take_lanes {j n : Nat} (h : j ≤ n) (x : Word) : (lanes n x).take j = lanes j x := by
  rw [lanes, ← List.map_take, List.take_range, Nat.min_eq_left h, lanes]

/-- What the environment sees of an operation on its way: a first part of the bytes, and the response only at the end. -/
theorem EncProgress.observed {v : Word} {s t : State} (h : EncProgress v s t) :
    ∃ j, t.sink = s.sink ++ (encodeRecord v).bytes.take j ∧
      ((t.enc.st = .idle ∧ (encodeRecord v).bytes.length ≤ j ∧
          t.encRsps = s.encRsps ++ [(encodeRecord v).response]) ∨
        (t.enc.st ≠ .idle ∧ t.encRsps = s.encRsps)) := by
  cases h with
  | emitting k hk st _ _ _ idx_lt sink encRsps =>
    refine ⟨t.enc.idx.toNat, ?_, .inr ⟨by simp [st], encRsps⟩⟩
    rw [encodeRecord_of_select hk, EncodeResult.bytes, take_lanes (Nat.le_of_lt idx_lt), sink]
  | responding st _ sink encRsps =>
    exact ⟨_, by rw [sink, List.take_length], .inr ⟨by simp [st], encRsps⟩⟩
  | finished st sink encRsps =>
    exact ⟨_, by rw [sink, List.take_length], .inl ⟨st, Nat.le_refl _, encRsps⟩⟩

/-- Settles O56: the request starts the operation, and every further edge keeps it going. -/
theorem encodeIsTheSameUnderAnyStalls : Obligations.EncodeIsTheSameUnderAnyStalls := by
  intro v ps rest s hst hps
  have haccept := encProgress_encAccept v { s with sched := rest }
  rw [← clockEdge_requestEncode (s := { s with sched := rest }) hst] at haccept
  obtain ⟨j, hj⟩ := (haccept.afterEdges hps).observed
  exact ⟨_, j, run_edges (ps := requestEncode v :: ps) rfl, hj⟩

end Sys2Proof.Machine

namespace Sys2Proof.Machine

/-! ### The class a value selects (spec/41_encoder.md R144, R146, R149) -/

/-- A field of a word is 0 exactly when the bits up to its top hold a number below its bottom bit's weight. -/
theorem extractLsb'_eq_zero_iff {v : Word} {lo len : Nat} (h : v.toNat < 2 ^ (lo + len)) :
    v.extractLsb' lo len = 0 ↔ v.toNat < 2 ^ lo := by
  have hlt : v.toNat / 2 ^ lo < 2 ^ len := Nat.div_lt_of_lt_mul (by rwa [← Nat.pow_add])
  rw [← BitVec.toNat_inj, BitVec.extractLsb'_toNat, Nat.shiftRight_eq_div_pow, Nat.mod_eq_of_lt hlt]
  exact Nat.div_eq_zero_iff_lt (Nat.two_pow_pos lo)

/-- Settles O3: each test of the chain sees a value that failed the tests before, so its field is all that is left above
the next bound. -/
theorem selectIsThePriorityTestOnLeadingBits : Obligations.SelectIsThePriorityTestOnLeadingBits := by
  intro v
  rw [select_eq, selectLogic]
  have field61 := extractLsb'_eq_zero_iff (v := v) (lo := 61) (len := 3) v.isLt
  by_cases h61 : v.toNat < 2 ^ 61
  · have field29 := extractLsb'_eq_zero_iff (v := v) (lo := 29) (len := 32) h61
    rw [if_neg (not_not.2 (field61.2 h61))]
    by_cases h29 : v.toNat < 2 ^ 29
    · have field14 := extractLsb'_eq_zero_iff (v := v) (lo := 14) (len := 15) h29
      rw [if_neg (not_not.2 (field29.2 h29))]
      by_cases h14 : v.toNat < 2 ^ 14
      · have field7 := extractLsb'_eq_zero_iff (v := v) (lo := 7) (len := 7) h14
        rw [if_neg (not_not.2 (field14.2 h14))]
        by_cases h7 : v.toNat < 2 ^ 7
        · rw [if_pos h7, if_neg (not_not.2 (field7.2 h7))]
        · rw [if_neg h7, if_pos h14, if_pos (mt field7.1 h7)]
      · rw [if_pos (mt field14.1 h14), if_neg (by omega), if_neg h14, if_pos h29]
    · rw [if_pos (mt field29.1 h29), if_neg (by omega), if_neg (by omega), if_neg h29, if_pos h61]
  · rw [if_pos (mt field61.1 h61), if_neg (by omega), if_neg (by omega), if_neg (by omega), if_neg h61]

theorem select_eq_none_iff (v : Word) : select v = none ↔ 2 ^ 61 ≤ v.toNat := by
  constructor
  · intro h
    by_contra hlt
    obtain ⟨k, hk⟩ := exists_select_of_lt (Nat.lt_of_not_le hlt)
    exact absurd (h.symm.trans hk) nofun
  · intro h
    by_contra hsome
    obtain ⟨k, hk⟩ := Option.ne_none_iff_exists'.1 hsome
    have hlt := lt_of_select hk
    have hle := Nat.pow_le_pow_right (n := 2) (by decide) (pb_le k)
    omega

theorem encodeRecord_eq_rangeError_iff (v : Word) : encodeRecord v = .rangeError ↔ select v = none := by
  rw [encodeRecord]
  cases select v <;> simp

/-- A value that is encoded is encoded in the class it selects. -/
theorem encodeRecord_eq_ok_iff {v : Word} {bytes : List Byte} :
    encodeRecord v = .ok bytes ↔ ∃ k, select v = some k ∧ lanes k.cap (tagged k v) = bytes := by
  rw [encodeRecord]
  cases select v <;> simp

/-- Settles O50: RangeError is what `encode` answers for a value that selects no class. -/
theorem rangeErrorExactlyFromTwoPow61 : Obligations.RangeErrorExactlyFromTwoPow61 := fun v =>
  (encodeRecord_eq_rangeError_iff v).trans (select_eq_none_iff v)

/-- In a list ordered by a reflexive relation, the first element that passes a test comes before every other. -/
theorem rel_of_find?_eq_some {α : Type} {R : α → α → Prop} (hrefl : ∀ a, R a a) {p : α → Bool} {l : List α} {a b : α}
    (hl : l.Pairwise R) (hfind : l.find? p = some a) (hb : b ∈ l) (hpb : p b = true) : R a b := by
  obtain ⟨_, before, after, rfl, hbefore⟩ := List.find?_eq_some_iff_append.1 hfind
  rw [List.mem_append, List.mem_cons] at hb
  rcases hb with hb | rfl | hb
  · exact absurd hpb (by simpa using hbefore b hb)
  · exact hrefl b
  · obtain ⟨_, hafter, _⟩ := List.pairwise_append.1 hl
    exact (List.pairwise_cons.1 hafter).1 b hb

/-- The lookup by value answers the smallest class that can hold it, because the table is in order of capacity. -/
theorem cap_le_of_select {v : Word} {k j : WidthClass} (hk : select v = some k) (hj : v.toNat < 2 ^ j.pb) :
    k.cap ≤ j.cap := by
  have ordered : WidthClass.all.Pairwise fun a b => a.cap ≤ b.cap := by decide
  exact rel_of_find?_eq_some (R := fun a b => a.cap ≤ b.cap) (fun a => Nat.le_refl a.cap) ordered hk (mem_all j)
    (decide_eq_true hj)

/-- Settles O48: the length of the record is the capacity of the class selected. -/
theorem encodedRecordIsMinimal : Obligations.EncodedRecordIsMinimal := by
  intro v bytes h
  obtain ⟨k, hk, rfl⟩ := encodeRecord_eq_ok_iff.1 h
  rw [length_lanes]
  exact ⟨fun j hj => cap_le_of_select hk hj, k, lt_of_select hk, rfl⟩

/-! ### The record of a value (spec/41_encoder.md R137, R145) -/

theorem toNat_tp_lt_two_pow_ts (k : WidthClass) : k.tp.toNat < 2 ^ k.ts := by cases k <;> decide

/-- The tag is in the bits below the value, so `|` is `+`. -/
theorem toNat_tagged {k : WidthClass} {v : Word} (h : v.toNat < 2 ^ k.pb) :
    (tagged k v).toNat = v.toNat * 2 ^ k.ts + k.tp.toNat := by
  have hshift : v.toNat * 2 ^ k.ts < 2 ^ 64 :=
    calc v.toNat * 2 ^ k.ts < 2 ^ k.pb * 2 ^ k.ts := Nat.mul_lt_mul_of_pos_right h (Nat.two_pow_pos _)
      _ = 2 ^ (k.pb + k.ts) := (Nat.pow_add 2 k.pb k.ts).symm
      _ ≤ 2 ^ 64 := Nat.pow_le_pow_right (by decide) (pb_add_ts_le k)
  rw [tagged, BitVec.toNat_or, BitVec.toNat_shiftLeft, Nat.shiftLeft_eq, Nat.mod_eq_of_lt hshift,
    BitVec.toNat_setWidth_of_le (by decide), Nat.mul_comm, Nat.two_pow_add_eq_or_of_lt (toNat_tp_lt_two_pow_ts k)]

/-- Settles O44: the tagged record as a number, its size, its tag and its payload. -/
theorem taggedRecordHoldsTagAndValue : Obligations.TaggedRecordHoldsTagAndValue := fun k v h =>
  ⟨toNat_tagged h, toNat_tagged_lt h, tagged_holdsTag k v, payload_tagged h⟩

/-- `decode` of the record of a value, in any class that can hold it, is the value, and what follows the record is left. -/
theorem decodeRecord_of_record {k : WidthClass} {v : Word} (h : v.toNat < 2 ^ k.pb) (left : List Answer) :
    decodeRecord ((lanes k.cap (tagged k v)).map .byte ++ left) = (.ok v, left) := by
  obtain ⟨got, hgot⟩ := lanes_eq_cons (cap_pos k) (tagged k v)
  have hlen : k.cap - 1 = got.length := by
    rw [← length_lanes k.cap (tagged k v), hgot, List.length_cons, Nat.add_sub_cancel]
  have hrec : (byteLane (tagged k v) 0).setWidth 64 ||| (assemble got <<< (8 * 1)) = tagged k v :=
    (congrArg assemble hgot).symm.trans (assemble_lanes (toNat_tagged_lt h))
  rw [hgot, List.map_cons, List.cons_append, decodeRecord, nextAnswer_cons]
  simp only [matchTag_byteLane_zero (tagged_holdsTag k v), hlen, decodeTail_bytes, hrec, payload_tagged h]

/-- Settles O49: `decode` takes the first record from what the second is, gives its value back and leaves the rest. -/
theorem encodingIsInjectiveAndPrefixFree : Obligations.EncodingIsInjectiveAndPrefixFree := by
  intro v w bytes more hv hw
  obtain ⟨k, hk, rfl⟩ := encodeRecord_eq_ok_iff.1 hv
  obtain ⟨j, hj, hbytes⟩ := encodeRecord_eq_ok_iff.1 hw
  have hdecode : (DecodeResult.ok w, []) = (DecodeResult.ok v, more.map Answer.byte) :=
    calc (DecodeResult.ok w, [])
      _ = decodeRecord ((lanes j.cap (tagged j w)).map .byte ++ []) := (decodeRecord_of_record (lt_of_select hj) []).symm
      _ = decodeRecord ((lanes k.cap (tagged k v)).map .byte ++ more.map .byte) := by
        rw [hbytes, List.map_append, List.append_nil]
      _ = _ := decodeRecord_of_record (lt_of_select hk) _
  simp only [Prod.mk.injEq, DecodeResult.ok.injEq] at hdecode
  obtain ⟨hval, hmore⟩ := hdecode
  exact ⟨hval.symm, List.map_eq_nil_iff.1 hmore.symm⟩

end Sys2Proof.Machine

namespace Sys2Proof.Machine

/-! ### Each `ENC` as a whole (spec/41_encoder.md R132 to R136, R139) -/

/-! The tagged record of each class, as the class's own rule writes it. -/

theorem tagged_one (v : Word) : tagged .one v = (v <<< 1) ||| 1#64 := rfl

theorem tagged_two (v : Word) : tagged .two v = (v <<< 2) ||| 2#64 := rfl

theorem tagged_four (v : Word) : tagged .four v = (v <<< 3) ||| 4#64 := rfl

theorem tagged_eight (v : Word) : tagged .eight v = v <<< 3 := BitVec.or_zero

/-- A whole `ENC` of class `k` by an idle encoder. -/
theorem encOperation_some_of_idle (k : WidthClass) (v : Word) {s : State} (hst : s.enc.st = .idle) :
    encOperation (some k) v s = .next { s with
      enc := { st := .idle, buf := tagged k v, cap := k.capBits, idx := k.capBits, status := .ok }
      sink := s.sink ++ lanes k.cap (tagged k v)
      encRsps := s.encRsps ++ [{ status := .ok, count := BitVec.ofNat 8 k.cap }] } := by
  rw [encOperation_of_idle (some k) v hst, encRun_some]

/-- Settles O10: `ENC.1` is the whole `ENC` of class 0. -/
theorem encodeOneByteRecord : Obligations.EncodeOneByteRecord := by
  intro v s _ hst
  rw [← tagged_one]
  exact encOperation_some_of_idle .one v hst

/-- Settles O11: `ENC.2` is the whole `ENC` of class 1. -/
theorem encodeTwoByteRecord : Obligations.EncodeTwoByteRecord := by
  intro v s _ _ hst
  rw [← tagged_two]
  exact encOperation_some_of_idle .two v hst

/-- Settles O12: `ENC.4` is the whole `ENC` of class 2. -/
theorem encodeFourByteRecord : Obligations.EncodeFourByteRecord := by
  intro v s _ _ hst
  rw [← tagged_four]
  exact encOperation_some_of_idle .four v hst

/-- Settles O13: `ENC.8` is the whole `ENC` of class 3, whose tag is 0. -/
theorem encodeEightByteRecord : Obligations.EncodeEightByteRecord := by
  intro v s _ _ hst
  rw [← tagged_eight]
  exact encOperation_some_of_idle .eight v hst

/-- Settles O14: `ENC.ERR` is the whole `ENC` of no class. -/
theorem encodeOutOfRangeIsRangeError : Obligations.EncodeOutOfRangeIsRangeError := fun v s _ hst =>
  (encOperation_of_idle none v hst).trans (congrArg _ (encRun_none v s))

/-- Settles O46, by what an `ENC` event does at an idle encoder. -/
theorem encodeOperationIsEncode : Obligations.EncodeOperationIsEncode := fun _ _ _ hst hsched =>
  step_encOp_of_idle hst hsched

/-! ### The encoder's transitions (spec/41_encoder.md R140, R141, R143) -/

/-- An edge without reset ends, in the encoder's part of the state, as the encoder's part of the edge does. -/
theorem step_edge_encAgree {p : Pins} {rest : List Event} {s : State} (hsched : s.sched = .edge p :: rest)
    (hrst : p.rst = false) : ∃ t, step s = .next t ∧ EncAgree t (encEdge p s) := by
  have hunsched : EncAgree { s with sched := rest } s := ⟨rfl, rfl, rfl, rfl⟩
  exact ⟨_, (step_edge hsched).trans (congrArg _ (clockEdge_run _ hrst)),
    (encAgree_decEdge_self p _).trans (hunsched.encEdge ⟨rfl, rfl, rfl, rfl⟩)⟩

/-- The capacity as `enc.cap` holds it (spec/10_state.md R22). -/
theorem ofNat_cap (k : WidthClass) : BitVec.ofNat 4 k.cap = k.capBits := by cases k <;> rfl

/-- Settles O24: an idle encoder's part of the edge is E-ACCEPT, whose registers are those of the class selected. -/
theorem encoderAcceptsARequest : Obligations.EncoderAcceptsARequest := by
  intro p v rest s hsched hrst hst hreq
  obtain ⟨t, hstep, enc, sink, encRsps, _⟩ := step_edge_encAgree hsched hrst
  rw [encEdge_of_request hst hreq] at enc sink encRsps
  obtain ⟨_, _, acceptSink, acceptRsps, _⟩ := encAccept_frame v s
  refine ⟨t, hstep, sink.trans acceptSink, encRsps.trans acceptRsps, fun hk => ?_, fun k hk => ?_⟩
  · rw [enc, encAccept, hk, encAcceptAs_none, raiseRange_enc]
  · rw [enc, encAccept, hk, encAcceptAs_some, tagged, ofNat_cap]

/-- Settles O25: an emitting encoder's part of the edge is E-EMIT, which leaves `E_EMIT` exactly at the last byte. -/
theorem encoderEmitsAByte : Obligations.EncoderEmitsAByte := by
  intro p rest s hsched hrst hst hready
  obtain ⟨t, hstep, enc, sink, encRsps, _⟩ := step_edge_encAgree hsched hrst
  rw [encEdge_of_emit hst hready] at enc sink encRsps
  refine ⟨t, hstep, sink, outputs_snkData hst, encRsps, ?_⟩
  by_cases hlast : s.enc.idx + 1 = s.enc.cap
  · rw [enc, encEmit_enc_last hlast]
    exact ⟨rfl, rfl, rfl, rfl, iff_of_true rfl hlast, iff_of_false nofun (not_not.2 hlast)⟩
  · rw [enc, encEmit_enc_more hlast]
    exact ⟨rfl, rfl, rfl, rfl, iff_of_false (by simp [hst]) hlast, iff_of_true hst hlast⟩

/-- Settles O26: the encoder's part of the edge is E-RESPOND, whose payload is what the pins carry. -/
theorem encoderResponds : Obligations.EncoderResponds := by
  intro p rest s hsched hrst hst hready
  obtain ⟨t, hstep, enc, sink, encRsps, _⟩ := step_edge_encAgree hsched hrst
  rw [encEdge_of_resp hst hready] at enc sink encRsps
  obtain ⟨status, count⟩ := outputs_encRsp hst
  exact ⟨t, hstep, enc, sink, encRsps, status, count⟩

end Sys2Proof.Machine

namespace Sys2Proof.Machine

/-! ### The first answers of a source (spec/20_memory.md R53, R70) -/

theorem nextAnswer_eq_exhausted_iff {src left : List Answer} :
    nextAnswer src = (.exhausted, left) ↔ src = .exhausted :: left ∨ (src = [] ∧ left = []) := by
  cases src <;> simp [eq_comm]

/-- A source runs out at once, or it begins with a byte and then has the rest of the record that byte announces or runs
out before. -/
theorem source_record_cases (src : List Answer) :
    (∃ left, nextAnswer src = (.exhausted, left)) ∨
      (∃ (k : WidthClass) (first : Byte) (got : List Byte) (left : List Answer),
        matchTag first = some k ∧ src = (first :: got).map .byte ++ left ∧
          (got.length + 1 = k.cap ∨ (got.length + 1 < k.cap ∧ (nextAnswer left).1 = .exhausted))) := by
  match src with
  | [] => exact .inl ⟨[], rfl⟩
  | .exhausted :: left => exact .inl ⟨left, rfl⟩
  | .byte first :: src =>
    obtain ⟨k, hk⟩ := exists_matchTag first
    have hpos := cap_pos k
    rcases source_bytes_or_short (k.cap - 1) src with ⟨got, left, hlen, rfl⟩ | ⟨got, left, hlen, rfl, hleft⟩
    · exact .inr ⟨k, first, got, left, hk, rfl, .inl (by omega)⟩
    · exact .inr ⟨k, first, got, left, hk, rfl, .inr ⟨by omega, hleft⟩⟩

/-! ### `decode` on each of them (spec/42_decoder.md R161, R176, R177, R182) -/

theorem decodeRecord_of_exhausted {src left : List Answer} (h : nextAnswer src = (.exhausted, left)) :
    decodeRecord src = (.truncatedInputError, left) := by
  rw [decodeRecord, h]

/-- After its first byte, `decode` is its last two steps for the class that byte matches. -/
theorem decodeRecord_byte {first : Byte} {k : WidthClass} (hk : matchTag first = some k) (src : List Answer) :
    decodeRecord (.byte first :: src) = decodeTail k (k.cap - 1) 1 (first.setWidth 64) src := by
  simp only [decodeRecord, nextAnswer_cons, hk]

theorem decodeRecord_of_bytes {first : Byte} {k : WidthClass} {got : List Byte} (hk : matchTag first = some k)
    (hlen : got.length + 1 = k.cap) (left : List Answer) :
    decodeRecord ((first :: got).map .byte ++ left) = (.ok (payload k (assemble (first :: got))), left) := by
  rw [List.map_cons, List.cons_append, decodeRecord_byte hk, ← hlen, Nat.add_sub_cancel, decodeTail_bytes, assemble]

theorem decodeRecord_of_short {first : Byte} {k : WidthClass} {got : List Byte} {left : List Answer}
    (hk : matchTag first = some k) (hlen : got.length + 1 < k.cap) (hleft : (nextAnswer left).1 = .exhausted) :
    decodeRecord ((first :: got).map .byte ++ left) = (.truncatedInputError, (nextAnswer left).2) := by
  rw [List.map_cons, List.cons_append, decodeRecord_byte hk]
  exact decodeTail_short k got _ _ _ left (by omega) hleft

/-- Settles O47: a source that runs out at once, one that has the whole record, and one that runs out within it. -/
theorem decodeOperationIsDecode : Obligations.DecodeOperationIsDecode := by
  intro rest s hst hsched
  rcases source_record_cases s.source with ⟨left, hsrc⟩ | ⟨k, first, got, left, hk, hsrc, hlen | ⟨hlen, hleft⟩⟩
  · rw [step_decOp_of_exhausted hst hsched (congrArg Prod.fst hsrc), decRunEmpty_eq, hsrc,
      decodeRecord_of_exhausted hsrc]
    refine ⟨_, ?_, rfl⟩
    rfl
  · rw [step_decOp_of_byte hst hsched hsrc hk, decRun_bytes k first got left _ hlen rfl, hsrc,
      decodeRecord_of_bytes hk hlen]
    refine ⟨_, ?_, rfl⟩
    rfl
  · rw [step_decOp_of_byte hst hsched hsrc hk, decRun_short k first got left _ hlen rfl hleft, hsrc,
      decodeRecord_of_short hk hlen hleft]
    refine ⟨_, ?_, rfl⟩
    rfl

/-- Settles O54: the `ENC` puts `encode(v)` on the sink, the record of the class that `v` selects, and a `DEC` gives the
value of a record back whatever its class. -/
theorem decodeAfterEncodeGivesTheValueBack : Obligations.DecodeAfterEncodeGivesTheValueBack := by
  intro v left rest s hv henc hdec hsched
  obtain ⟨k, hk⟩ := exists_select_of_lt hv
  obtain ⟨e, _, hencStep⟩ := step_encOp_of_idle henc hsched
  have hbytes : (encodeRecord v).bytes = lanes k.cap (tagged k v) := congrArg _ (encodeRecord_of_select hk)
  obtain ⟨d, _, hdecStep⟩ := step_decOp_of_record (lt_of_select hk) (left := left) (rest := rest)
    (s := { s with
      sched := .decOp :: rest, enc := e, sink := s.sink ++ (encodeRecord v).bytes
      encRsps := s.encRsps ++ [(encodeRecord v).response]
      source := (encodeRecord v).bytes.map .byte ++ left })
    hdec rfl (by rw [hbytes])
  exact ⟨_, _, _, hencStep, rfl, hdecStep, rfl, rfl⟩

/-- Settles O51: `decode` gives back the value of a record of any class that can hold it. -/
theorem recordOfAnyClassDecodesToItsValue : Obligations.RecordOfAnyClassDecodesToItsValue := fun _ _ left hv =>
  decodeRecord_of_record hv left

/-- The payload of a record that fits its class's bytes is a value the class can hold (spec/42_decoder.md R177). -/
theorem toNat_payload_lt_two_pow_pb {k : WidthClass} {r : Word} (h : r.toNat < 2 ^ (8 * k.cap)) :
    (payload k r).toNat < 2 ^ k.pb := by
  rw [payload, BitVec.toNat_ushiftRight, Nat.shiftRight_eq_div_pow]
  apply Nat.div_lt_of_lt_mul
  rwa [Nat.mul_comm, two_pow_pb_mul_ts]

/-- The low three bits of the first byte give the capacity and the bound of the class it matches
(spec/30_encoding.md R88, R92). -/
theorem cap_and_bound_of_low3 {b : Byte} {k : WidthClass} (h : matchTag b = some k) :
    k.cap = [8, 1, 2, 1, 4, 1, 2, 1][b.toNat % 8]! ∧
      2 ^ k.pb = [2 ^ 61, 2 ^ 7, 2 ^ 14, 2 ^ 7, 2 ^ 29, 2 ^ 7, 2 ^ 14, 2 ^ 7][b.toNat % 8]! := by
  have pattern : ∀ m < 8, ∀ k ∈ WidthClass.all, matchTag (BitVec.ofNat 8 m) = some k →
      k.cap = [8, 1, 2, 1, 4, 1, 2, 1][m]! ∧
        2 ^ k.pb = [2 ^ 61, 2 ^ 7, 2 ^ 14, 2 ^ 7, 2 ^ 29, 2 ^ 7, 2 ^ 14, 2 ^ 7][m]! := by decide
  exact pattern _ (Nat.mod_lt _ (by decide)) k (mem_all k) (matchTag_eq_low3 b ▸ h)

/-- Settles O52: only a source that has the whole record decodes to a value, and a record's payload is below its class's
bound. -/
theorem decodedRecordHasTheLengthOfItsFirstByte : Obligations.DecodedRecordHasTheLengthOfItsFirstByte := by
  intro src left v h
  rcases source_record_cases src with ⟨_, hsrc⟩ | ⟨k, first, got, left', hk, rfl, hlen | ⟨hlen, hleft⟩⟩
  · rw [decodeRecord_of_exhausted hsrc] at h
    cases h
  · rw [decodeRecord_of_bytes hk hlen] at h
    cases h
    obtain ⟨hcap, hbound⟩ := cap_and_bound_of_low3 hk
    have hrec : (assemble (first :: got)).toNat < 2 ^ (8 * k.cap) := hlen ▸ toNat_assemble_lt (first :: got)
    refine ⟨first, got, rfl, hlen.trans hcap, hbound ▸ toNat_payload_lt_two_pow_pb hrec, fun hrange => ?_⟩
    exact Nat.not_le_of_lt (toNat_payload_lt hrec) ((rangeErrorExactlyFromTwoPow61 _).1 hrange)
  · rw [decodeRecord_of_short hk hlen hleft] at h
    cases h

/-- Settles O53, at the end of the list of answers and at an `Exhausted` answer in it. -/
theorem truncationNeverReadsBeyondTheSource : Obligations.TruncationNeverReadsBeyondTheSource := by
  intro first got k left hk hlen
  constructor
  · simpa using decodeRecord_of_short (left := []) hk hlen rfl
  · exact decodeRecord_of_short (left := .exhausted :: left) hk hlen rfl

/-! ### Each `DEC` as a whole (spec/42_decoder.md R164 to R167, R169) -/

/-- A whole `DEC` of class `k` by an idle decoder whose source has the rest of the record. -/
theorem decOperation_of_bytes {k : WidthClass} (first : Byte) {got : List Byte} {left : List Answer} {s : State}
    (hst : s.dec.st = .idle) (hlen : got.length + 1 = k.cap) (hsrc : s.source = got.map .byte ++ left) :
    decOperation k first s = .next { s with
      source := left
      dec := { st := .idle, buf := assemble (first :: got), k := k, idx := k.capBits, status := .ok }
      decRsps := s.decRsps ++ [{ status := .ok, value := payload k (assemble (first :: got)) }] } := by
  rw [decOperation_of_idle k first hst, decRun_bytes k first got left s hlen hsrc]

theorem assemble_singleton (b : Byte) : assemble [b] = b.setWidth 64 := by simp [assemble]

/-- One more byte of a record goes below those above it. -/
theorem assemble_cons_eq_setWidth_append {m : Nat} {x : BitVec m} {bs : List Byte} (b : Byte)
    (h : assemble bs = x.setWidth 64) : assemble (b :: bs) = (x ++ b).setWidth 64 := by
  rw [assemble, h, setWidth_append]

/-- Settles O15: `DEC.1` is the whole `DEC` of class 0, which needs no further byte. -/
theorem decodeOneByteRecord : Obligations.DecodeOneByteRecord := by
  intro first s _ hst
  rw [← assemble_singleton]
  exact decOperation_of_bytes (k := .one) (got := []) first hst rfl rfl

/-- Settles O16: `DEC.2` is the whole `DEC` of class 1. -/
theorem decodeTwoByteRecord : Obligations.DecodeTwoByteRecord := by
  intro first b1 left s _ hst hsrc
  have hrec : assemble [first, b1] = (b1 ++ first).setWidth 64 :=
    assemble_cons_eq_setWidth_append _ (assemble_singleton b1)
  rw [← hrec]
  exact decOperation_of_bytes (k := .two) (got := [b1]) first hst rfl hsrc

/-- Settles O17: `DEC.4` is the whole `DEC` of class 2. -/
theorem decodeFourByteRecord : Obligations.DecodeFourByteRecord := by
  intro first b1 b2 b3 left s _ hst hsrc
  have hrec : assemble [first, b1, b2, b3] = (b3 ++ b2 ++ b1 ++ first).setWidth 64 := by
    repeat apply assemble_cons_eq_setWidth_append
    exact assemble_singleton b3
  rw [← hrec]
  exact decOperation_of_bytes (k := .four) (got := [b1, b2, b3]) first hst rfl hsrc

/-- Settles O18: `DEC.8` is the whole `DEC` of class 3. -/
theorem decodeEightByteRecord : Obligations.DecodeEightByteRecord := by
  intro first b1 b2 b3 b4 b5 b6 b7 left s _ hst hsrc
  have hrec : assemble [first, b1, b2, b3, b4, b5, b6, b7] =
      (b7 ++ b6 ++ b5 ++ b4 ++ b3 ++ b2 ++ b1 ++ first).setWidth 64 := by
    repeat apply assemble_cons_eq_setWidth_append
    exact assemble_singleton b7
  rw [← hrec]
  exact decOperation_of_bytes (k := .eight) (got := [b1, b2, b3, b4, b5, b6, b7]) first hst rfl hsrc

/-- A whole `DEC` of class `k` by an idle decoder whose source runs out before the record is complete. -/
theorem decOperation_of_short {k : WidthClass} (first : Byte) {got : List Byte} {after left : List Answer} {s : State}
    (hst : s.dec.st = .idle) (hlen : got.length + 1 < k.cap) (hsrc : s.source = got.map .byte ++ after)
    (hafter : nextAnswer after = (.exhausted, left)) :
    ∃ u : DecUnit,
      decOperation k first s = .next { s with
        source := left, dec := u, decRsps := s.decRsps ++ [{ status := .trunc, value := 0 }] } ∧
      u.st = .idle ∧ u.k = k ∧ u.idx.toNat = got.length + 1 ∧ u.status = .trunc := by
  have hcap := cap_le k
  have hrun := decRun_short k first got after s hlen hsrc (congrArg Prod.fst hafter)
  rw [hafter] at hrun
  refine ⟨_, (decOperation_of_idle k first hst).trans (congrArg _ hrun), rfl, rfl, ?_, rfl⟩
  exact Nat.mod_eq_of_lt (by omega)

/-- Settles O19: each of the three is the whole `DEC` of its class. -/
theorem truncatedRecordIsTruncatedInputError : Obligations.TruncatedRecordIsTruncatedInputError := by
  intro i k first got left s hvariant _ hst hlen hsrc
  have hexec : exec i s = decOperation k first s := by
    rcases hvariant with ⟨rfl, rfl⟩ | ⟨rfl, rfl⟩ | ⟨rfl, rfl⟩ <;> rfl
  rw [hexec]
  rcases hsrc with ⟨hsrc, rfl⟩ | hsrc
  · exact decOperation_of_short first hst hlen (after := []) (by simpa using hsrc) rfl
  · exact decOperation_of_short first hst hlen hsrc rfl

/-- Settles O20: the first pull is answered `Exhausted`, which names no variant. -/
theorem emptySourceIsTruncatedInputError : Obligations.EmptySourceIsTruncatedInputError := by
  intro left rest s hst hsched hsrc
  have hnext := nextAnswer_eq_exhausted_iff.2 hsrc.symm
  rw [step_decOp_of_exhausted hst hsched (congrArg Prod.fst hnext), decRunEmpty_eq, hnext]
  simp only [hst]

/-! ### The decoder's transitions (spec/42_decoder.md R170 to R172, R174, R175) -/

/-- An edge without reset ends, in the decoder's part of the state, as the decoder's part of the edge does. -/
theorem step_edge_decAgree {p : Pins} {rest : List Event} {s : State} (hsched : s.sched = .edge p :: rest)
    (hrst : p.rst = false) : ∃ t, step s = .next t ∧ DecAgree t (decEdge p s) := by
  have hunsched : DecAgree { s with sched := rest } s := ⟨rfl, rfl, rfl, rfl⟩
  exact ⟨_, (step_edge hsched).trans (congrArg _ (clockEdge_run _ hrst)),
    ((decAgree_encEdge_self p _).trans hunsched).decEdge ⟨rfl, rfl, rfl, rfl⟩⟩

/-- Settles O27: an idle decoder's part of the edge is D-ACCEPT. -/
theorem decoderAcceptsARequest : Obligations.DecoderAcceptsARequest := by
  intro p rest s hsched hrst hst hreq
  obtain ⟨t, hstep, dec, source, decRsps, _⟩ := step_edge_decAgree hsched hrst
  rw [decEdge_of_request hst hreq] at dec source decRsps
  exact ⟨t, hstep, dec, source, decRsps⟩

/-! #### The byte positions of the buffer -/

theorem byteLane_setByteLane_same {i : Nat} (x : Word) (b : Byte) (hi : i < 8) :
    byteLane (setByteLane x i b) i = b := by
  apply BitVec.eq_of_getLsbD_eq
  intro j hj
  have h64 : 8 * i + j < 64 := by omega
  have hlane : 8 * i ≤ 8 * i + j ∧ 8 * i + j < 8 * i + 8 := by omega
  simp only [getLsbD_byteLane, getLsbD_setByteLane, hj, h64, hlane, and_self, decide_true, Bool.true_and, if_true,
    Nat.add_sub_cancel_left]

theorem byteLane_setByteLane_of_ne {i j : Nat} (x : Word) (b : Byte) (hj : j < 8) (hne : j ≠ i) :
    byteLane (setByteLane x i b) j = byteLane x j := by
  apply BitVec.eq_of_getLsbD_eq
  intro m hm
  have h64 : 8 * j + m < 64 := by omega
  have hlane : ¬ (8 * i ≤ 8 * j + m ∧ 8 * j + m < 8 * i + 8) := by omega
  simp only [getLsbD_byteLane, getLsbD_setByteLane, h64, hlane, decide_true, Bool.true_and, if_false]

/-! #### The pulls -/

/-- At an edge on which the source answers a decoder in `D_FIRST`, D-FIRST takes its first answer. -/
theorem step_edge_of_first {p : Pins} {rest : List Event} {s : State} (hsched : s.sched = .edge p :: rest)
    (hrst : p.rst = false) (hst : s.dec.st = .first) (hvalid : p.srcValid = true) :
    ∃ t, step s = .next t ∧ t.decRsps = s.decRsps ∧ t.source = (nextAnswer s.source).2 ∧
      t.dec = (decFirst (nextAnswer s.source).1 s).dec := by
  obtain ⟨t, hstep, dec, source, decRsps, _⟩ := step_edge_decAgree hsched hrst
  rw [decEdge_of_first hst hvalid] at dec source decRsps
  rw [decFirst_eq] at source decRsps
  exact ⟨t, hstep, decRsps, source, dec.trans (decFirst_dec_congr _ (srcPull_dec s))⟩

/-- At an edge on which the source answers a decoder in `D_REST`, D-REST takes its first answer. -/
theorem step_edge_of_rest {p : Pins} {rest : List Event} {s : State} (hsched : s.sched = .edge p :: rest)
    (hrst : p.rst = false) (hst : s.dec.st = .rest) (hvalid : p.srcValid = true) :
    ∃ t, step s = .next t ∧ t.decRsps = s.decRsps ∧ t.source = (nextAnswer s.source).2 ∧
      t.dec = (decRest (nextAnswer s.source).1 s).dec := by
  obtain ⟨t, hstep, dec, source, decRsps, _⟩ := step_edge_decAgree hsched hrst
  rw [decEdge_of_rest hst hvalid] at dec source decRsps
  rw [decRest_eq] at source decRsps
  exact ⟨t, hstep, decRsps, source, dec.trans (decRest_dec_congr _ (srcPull_dec s))⟩

/-- D-FIRST on a byte that is a record of its own. -/
theorem decFirstAs_of_cap_eq_one {k : WidthClass} (b : Byte) (s : State) (hcap : k.cap = 1) :
    decFirstAs (some k) b s = { s with dec := { s.dec with
      buf := setByteLane s.dec.buf 0 b, idx := 1, k := k, status := .ok, st := .resp } } := if_pos hcap

/-- D-FIRST on a byte that announces further ones. -/
theorem decFirstAs_of_cap_ne_one {k : WidthClass} (b : Byte) (s : State) (hcap : k.cap ≠ 1) :
    decFirstAs (some k) b s = { s with dec := { s.dec with
      buf := setByteLane s.dec.buf 0 b, idx := 1, k := k, st := .rest } } := if_neg hcap

/-- Settles O28: the answer to the pull, and then whether the byte's class has one byte, decide which registers D-FIRST
writes. -/
theorem decoderTakesTheFirstByte : Obligations.DecoderTakesTheFirstByte := by
  intro p rest s hsched hrst hst hvalid
  obtain ⟨t, hstep, decRsps, source, dec⟩ := step_edge_of_first hsched hrst hst hvalid
  refine ⟨t, hstep, decRsps, fun left hsrc => ?_, fun b left hsrc => ?_⟩
  · rw [nextAnswer_eq_exhausted_iff.2 hsrc] at source dec
    exact ⟨source, dec⟩
  · obtain ⟨k, hk⟩ := exists_matchTag b
    have same := byteLane_setByteLane_same s.dec.buf b (i := 0) (by decide)
    have others : ∀ i, 1 ≤ i → i < 8 → byteLane (setByteLane s.dec.buf 0 b) i = byteLane s.dec.buf i :=
      fun i hpos hi => byteLane_setByteLane_of_ne _ b hi (by omega)
    rw [hsrc, nextAnswer_cons] at source dec
    rw [decFirst_byte, hk] at dec
    by_cases hcap : k.cap = 1
    · rw [decFirstAs_of_cap_eq_one b s hcap] at dec
      rw [dec, hk]
      refine ⟨source, rfl, same, others, fun j hj => ?_⟩
      cases hj
      exact ⟨rfl, fun _ => ⟨rfl, rfl⟩, fun hne => absurd hcap hne⟩
    · rw [decFirstAs_of_cap_ne_one b s hcap] at dec
      rw [dec, hk]
      refine ⟨source, rfl, same, others, fun j hj => ?_⟩
      cases hj
      exact ⟨rfl, fun hone => absurd hone hcap, fun _ => ⟨rfl, rfl⟩⟩

/-- Settles O29: the answer to the pull, and then whether the byte is the record's last, decide which registers D-REST
writes. -/
theorem decoderTakesAFurtherByte : Obligations.DecoderTakesAFurtherByte := by
  intro p rest s hsched hrst hst hvalid hidx
  obtain ⟨t, hstep, decRsps, source, dec⟩ := step_edge_of_rest hsched hrst hst hvalid
  refine ⟨t, hstep, decRsps, fun left hsrc => ?_, fun b left hsrc => ?_⟩
  · rw [nextAnswer_eq_exhausted_iff.2 hsrc] at source dec
    exact ⟨source, dec⟩
  · have same := byteLane_setByteLane_same s.dec.buf b (Nat.lt_of_lt_of_le hidx (cap_le s.dec.k))
    have others : ∀ i, i < 8 → i ≠ s.dec.idx.toNat →
        byteLane (setByteLane s.dec.buf s.dec.idx.toNat b) i = byteLane s.dec.buf i :=
      fun i hi hne => byteLane_setByteLane_of_ne _ b hi hne
    rw [hsrc, nextAnswer_cons] at source dec
    rw [decRest_byte] at dec
    by_cases hlast : s.dec.idx.toNat + 1 = s.dec.k.cap
    · rw [decRestByte_last hlast] at dec
      rw [dec]
      exact ⟨source, rfl, rfl, same, others, fun _ => ⟨rfl, rfl⟩, fun hne => absurd hlast hne⟩
    · rw [decRestByte_more (by omega)] at dec
      rw [dec]
      exact ⟨source, rfl, rfl, same, others, fun heq => absurd heq hlast, fun _ => ⟨rfl, hst⟩⟩

/-! #### The response -/

/-- Settles O30: the decoder's part of the edge is D-RESPOND, whose payload is what the pins carry. -/
theorem decoderResponds : Obligations.DecoderResponds := by
  intro p rest s hsched hrst hst hready
  obtain ⟨t, hstep, dec, source, decRsps, _⟩ := step_edge_decAgree hsched hrst
  rw [decEdge_of_resp hst hready] at dec source decRsps
  obtain ⟨status, value⟩ := outputs_decRsp hst
  exact ⟨t, _, hstep, dec, source, decRsps, status, value, fun hok => if_pos hok, fun hne => if_neg hne⟩

/-- Settles O31: the arm writes the registers of a response with status INVTAG, which carries no value. -/
theorem invalidTagArmEndsTheOperation : Obligations.InvalidTagArmEndsTheOperation := by
  intro b s hbuf
  have hlane : setByteLane s.dec.buf 0 b = b.setWidth 64 := hbuf ▸ setByteLane_zero b
  constructor
  · rw [decFirstAs, hlane]
  · rfl

end Sys2Proof.Machine

namespace Sys2Proof.Machine

/-! ### Every operation ends (spec/60_exceptions.md R203, spec/70_reset_and_hazards.md R245)

Each unit has a measure of its state: how many transfers it has at most still to make before it is idle. The register
invariants bound it by nine, and an edge on which the environment completes the transfer the unit offers takes one
off. -/

/-- The transfers an encoder has still to make: the bytes not handed over yet, and the response. -/
def EncUnit.transfersLeft (u : EncUnit) : Nat :=
  match u.st with
  | .idle => 0
  | .emit => u.cap.toNat - u.idx.toNat + 1
  | .resp => 1

/-- The transfers a decoder has at most still to make: the pulls of the record, of the longest one as long as no class is
known, and the response. -/
def DecUnit.transfersLeft (u : DecUnit) : Nat :=
  match u.st with
  | .idle => 0
  | .first => Config.bufBytes + 1
  | .rest => u.k.cap - u.idx.toNat + 1
  | .resp => 1

/-- The environment completes every transfer the encoder offers, and offers it no new request. -/
abbrev ServesEncoder (p : Pins) : Prop :=
  p.rst = false ∧ p.encReq = none ∧ p.snkReady = true ∧ p.encRspReady = true

/-- The environment completes every transfer the decoder offers, and offers it no new request. -/
abbrev ServesDecoder (p : Pins) : Prop :=
  p.rst = false ∧ p.decReqValid = false ∧ p.srcValid = true ∧ p.decRspReady = true

/-- A measure that every edge of some kind takes one off is 0 after as many such edges as it was. -/
theorem afterEdges_measure_eq_zero {μ : State → Nat} {P : Pins → Prop}
    (edge : ∀ {p s}, P p → RegInv s → μ (clockEdge p s) ≤ μ s - 1) {ps : List Pins} {s : State}
    (hps : ∀ p ∈ ps, P p) (hinv : RegInv s) (hlen : μ s ≤ ps.length) : μ (afterEdges ps s) = 0 := by
  induction ps generalizing s with
  | nil => exact Nat.le_zero.1 hlen
  | cons p ps ih =>
    obtain ⟨hp, hps⟩ := List.forall_mem_cons.1 hps
    have hone : μ (clockEdge p s) ≤ μ s - 1 := edge hp hinv
    rw [List.length_cons] at hlen
    rw [afterEdges_cons]
    exact ih hps (regInv_clockEdge p hinv) (by omega)

/-! #### The encoder -/

theorem encTransfersLeft_of_idle {u : EncUnit} (h : u.st = .idle) : u.transfersLeft = 0 := by
  rw [EncUnit.transfersLeft, h]

theorem encTransfersLeft_of_emit {u : EncUnit} (h : u.st = .emit) :
    u.transfersLeft = u.cap.toNat - u.idx.toNat + 1 := by
  rw [EncUnit.transfersLeft, h]

theorem encTransfersLeft_of_resp {u : EncUnit} (h : u.st = .resp) : u.transfersLeft = 1 := by
  rw [EncUnit.transfersLeft, h]

theorem encTransfersLeft_eq_zero_iff {u : EncUnit} : u.transfersLeft = 0 ↔ u.st = .idle := by
  cases h : u.st with
  | idle => simp [encTransfersLeft_of_idle h]
  | emit => simp [encTransfersLeft_of_emit h]
  | resp => simp [encTransfersLeft_of_resp h]

/-- No record is longer than the buffer. -/
theorem encTransfersLeft_le {u : EncUnit} (h : EncInv u) : u.transfersLeft ≤ Config.bufBytes + 1 := by
  cases hst : u.st with
  | idle => rw [encTransfersLeft_of_idle hst]; decide
  | emit =>
    obtain ⟨hemit, _⟩ := h
    obtain ⟨_, _, k, _, hcap, _⟩ := hemit hst
    have hlen := cap_le k
    rw [encTransfersLeft_of_emit hst, hcap, toNat_capBits, Config.bufBytes]
    omega
  | resp => rw [encTransfersLeft_of_resp hst]; decide

/-- E-EMIT is one of the transfers, the record's last byte or another. -/
theorem encTransfersLeft_encEmit {s : State} (hst : s.enc.st = .emit) (h : EncInv s.enc) :
    (encEmit s).enc.transfersLeft ≤ s.enc.transfersLeft - 1 := by
  obtain ⟨hemit, _⟩ := h
  obtain ⟨hidx, _, k, _, hcap, _⟩ := hemit hst
  rw [encTransfersLeft_of_emit hst]
  by_cases hlast : s.enc.idx + 1 = s.enc.cap
  · rw [encEmit_enc_last hlast, encTransfersLeft_of_resp rfl]
    omega
  · have hsucc : (s.enc.idx + 1).toNat = s.enc.idx.toNat + 1 :=
      toNat_idx_succ (k := k) (by rw [← toNat_capBits, ← hcap]; exact hidx)
    have hleft : (encEmit s).enc.transfersLeft = s.enc.cap.toNat - (s.enc.idx + 1).toNat + 1 := by
      rw [encEmit_enc_more hlast]
      exact encTransfersLeft_of_emit hst
    rw [hleft, hsucc]
    omega

/-- A served edge is one of the encoder's transfers, whatever the decoder does at it. -/
theorem encTransfersLeft_clockEdge {p : Pins} {s : State} (hp : ServesEncoder p) (h : RegInv s) :
    (clockEdge p s).enc.transfersLeft ≤ s.enc.transfersLeft - 1 := by
  obtain ⟨hrst, hreq, hsnk, hrsp⟩ := hp
  obtain ⟨henc, _⟩ := h
  rw [clockEdge_run s hrst, (encAgree_decEdge_self p _).enc]
  cases hst : s.enc.st with
  | idle => rw [encEdge_of_idle hst hreq, encTransfersLeft_of_idle hst]
  | emit => rw [encEdge_of_emit hst hsnk]; exact encTransfersLeft_encEmit hst henc
  | resp => rw [encEdge_of_resp hst hrsp, encTransfersLeft_of_resp hst, encTransfersLeft_of_idle rfl]

/-! #### The decoder -/

theorem decTransfersLeft_of_idle {u : DecUnit} (h : u.st = .idle) : u.transfersLeft = 0 := by
  rw [DecUnit.transfersLeft, h]

theorem decTransfersLeft_of_first {u : DecUnit} (h : u.st = .first) : u.transfersLeft = Config.bufBytes + 1 := by
  rw [DecUnit.transfersLeft, h]

theorem decTransfersLeft_of_rest {u : DecUnit} (h : u.st = .rest) :
    u.transfersLeft = u.k.cap - u.idx.toNat + 1 := by
  rw [DecUnit.transfersLeft, h]

theorem decTransfersLeft_of_resp {u : DecUnit} (h : u.st = .resp) : u.transfersLeft = 1 := by
  rw [DecUnit.transfersLeft, h]

theorem decTransfersLeft_eq_zero_iff {u : DecUnit} : u.transfersLeft = 0 ↔ u.st = .idle := by
  cases h : u.st with
  | idle => simp [decTransfersLeft_of_idle h]
  | first => simp [decTransfersLeft_of_first h]
  | rest => simp [decTransfersLeft_of_rest h]
  | resp => simp [decTransfersLeft_of_resp h]

/-- No record is longer than the buffer, in any state of the registers. -/
theorem decTransfersLeft_le (u : DecUnit) : u.transfersLeft ≤ Config.bufBytes + 1 := by
  cases hst : u.st with
  | idle => rw [decTransfersLeft_of_idle hst]; decide
  | first => rw [decTransfersLeft_of_first hst]
  | rest =>
    have hlen := cap_le u.k
    rw [decTransfersLeft_of_rest hst, Config.bufBytes]
    omega
  | resp => rw [decTransfersLeft_of_resp hst]; decide

/-- D-FIRST is one of the transfers: the class of the byte is known after it, and no class has more than `BUF_BYTES`
bytes. -/
theorem decTransfersLeft_decFirst (a : Answer) {s : State} (hst : s.dec.st = .first) :
    (decFirst a s).dec.transfersLeft ≤ s.dec.transfersLeft - 1 := by
  rw [decTransfersLeft_of_first hst, Config.bufBytes]
  cases a with
  | exhausted => rw [decFirst_exhausted, decTransfersLeft_of_resp rfl]; omega
  | byte b =>
    obtain ⟨k, hk⟩ := exists_matchTag b
    rw [decFirst_byte, hk]
    by_cases hcap : k.cap = 1
    · rw [decFirstAs_of_cap_eq_one b s hcap, decTransfersLeft_of_resp rfl]
      omega
    · have hlen := cap_le k
      have hleft : (decFirstAs (some k) b s).dec.transfersLeft = k.cap - 1 + 1 := by
        rw [decFirstAs_of_cap_ne_one b s hcap]
        exact decTransfersLeft_of_rest rfl
      omega

/-- D-REST is one of the transfers, the record's last byte, another, or the `Exhausted` that ends it early. -/
theorem decTransfersLeft_decRest (a : Answer) {s : State} (hst : s.dec.st = .rest) (h : DecInv s.dec) :
    (decRest a s).dec.transfersLeft ≤ s.dec.transfersLeft - 1 := by
  obtain ⟨_, hrest, _⟩ := h
  obtain ⟨_, hidx, _⟩ := hrest hst
  rw [decTransfersLeft_of_rest hst]
  cases a with
  | exhausted => rw [decRest_exhausted, decTransfersLeft_of_resp rfl]; omega
  | byte b =>
    rw [decRest_byte]
    by_cases hlast : s.dec.idx.toNat + 1 = s.dec.k.cap
    · rw [decRestByte_last hlast, decTransfersLeft_of_resp rfl]
      omega
    · have hleft : (decRestByte b s).dec.transfersLeft = s.dec.k.cap - (s.dec.idx + 1).toNat + 1 := by
        rw [decRestByte_more (by omega)]
        exact decTransfersLeft_of_rest hst
      rw [hleft, toNat_idx_succ hidx]
      omega

/-- A served edge is one of the decoder's transfers, whatever the encoder does at it and the source answers. -/
theorem decTransfersLeft_clockEdge {p : Pins} {s : State} (hp : ServesDecoder p) (h : RegInv s) :
    (clockEdge p s).dec.transfersLeft ≤ s.dec.transfersLeft - 1 := by
  obtain ⟨hrst, hreq, hsrc, hrsp⟩ := hp
  obtain ⟨_, hdec⟩ := h
  rw [clockEdge_run s hrst, decEdge_encEdge_comm, (decAgree_encEdge_self p _).dec]
  cases hst : s.dec.st with
  | idle => rw [decEdge_of_idle hst hreq, decTransfersLeft_of_idle hst]
  | first => rw [decEdge_of_first hst hsrc]; exact decTransfersLeft_decFirst _ (s := s.srcPull.2) hst
  | rest => rw [decEdge_of_rest hst hsrc]; exact decTransfersLeft_decRest _ (s := s.srcPull.2) hst hdec
  | resp => rw [decEdge_of_resp hst hrsp, decTransfersLeft_of_resp hst, decTransfersLeft_of_idle rfl]

/-- Settles O57: each unit has at most nine transfers left, and each of the nine edges takes one off. -/
theorem everyOperationEndsWithinTenTransfers : Obligations.EveryOperationEndsWithinTenTransfers := by
  intro ps rest s hinv hlen hsched
  have hrun := run_edges hsched
  rw [hlen] at hrun
  refine ⟨fun hps => ⟨_, hrun, encTransfersLeft_eq_zero_iff.1 ?_⟩,
    fun hps => ⟨_, hrun, decTransfersLeft_eq_zero_iff.1 ?_⟩⟩
  · exact afterEdges_measure_eq_zero (μ := fun t => t.enc.transfersLeft) encTransfersLeft_clockEdge hps
      (s := { s with sched := rest }) hinv (hlen ▸ encTransfersLeft_le hinv.1)
  · exact afterEdges_measure_eq_zero (μ := fun t => t.dec.transfersLeft) decTransfersLeft_clockEdge hps
      (s := { s with sched := rest }) hinv (hlen ▸ decTransfersLeft_le s.dec)

/-! ### A busy unit (spec/60_exceptions.md R207, spec/70_reset_and_hazards.md R247) -/

theorem encOperation_of_busy (k : Option WidthClass) (v : Word) {s : State} (h : s.enc.st ≠ .idle) :
    encOperation k v s = .next s := by
  rcases encOperation_cases k v s with ⟨hidle, _⟩ | ⟨_, e⟩
  · exact absurd hidle h
  · exact e

theorem decOperation_of_busy (k : WidthClass) (b : Byte) {s : State} (h : s.dec.st ≠ .idle) :
    decOperation k b s = .next s := by
  rcases decOperation_cases k b s with ⟨hidle, _⟩ | ⟨_, e⟩
  · exact absurd hidle h
  · exact e

/-- An `ENC` event at a busy encoder. -/
theorem step_encOp_of_busy {v : Word} {rest : List Event} {s : State} (hst : s.enc.st ≠ .idle)
    (hsched : s.sched = .encOp v :: rest) : step s = .next { s with sched := rest } := by
  rw [step_encOp hsched, exec_decodeRequest]
  exact encOperation_of_busy (select v) v (s := { s with sched := rest }) hst

/-- A `DEC` event at a busy decoder: nothing is pulled for it. -/
theorem step_decOp_of_busy {rest : List Event} {s : State} (hst : s.dec.st ≠ .idle)
    (hsched : s.sched = .decOp :: rest) : step s = .next { s with sched := rest } := by
  simp [step, fetch, hsched, fetchDec, DecUnit.reqReady, hst]

/-- Settles O21: every variant is the operation of its class, and a busy unit's operation leaves the state as it is. -/
theorem busyUnitDoesNotAccept : Obligations.BusyUnitDoesNotAccept := by
  constructor
  · intro v s hst
    have busy := fun k => encOperation_of_busy k v hst
    exact ⟨⟨busy (some .one), busy (some .two), busy (some .four), busy (some .eight), busy none⟩,
      fun _ hsched => step_encOp_of_busy hst hsched⟩
  · intro b s hst
    have busy := fun k => decOperation_of_busy k b hst
    exact ⟨⟨busy .one, busy .two, busy .four, busy .eight⟩, fun _ hsched => step_decOp_of_busy hst hsched⟩

/-! ### Nothing stops the machine (spec/60_exceptions.md R200, R203) -/

theorem exists_exec_eq_next (i : Instr) (s : State) : ∃ t, exec i s = .next t := by
  rcases exec_cases i s with ⟨k, v, e, _⟩ | ⟨k, b, e, _⟩ | e <;> exact ⟨_, e⟩

theorem exists_step_eq_next (s : State) : ∃ t, step s = .next t := by
  rw [step]
  cases fetch s with
  | run i s' => exact exists_exec_eq_next i s'
  | done s' => exact ⟨s', rfl⟩

/-- Settles O22: an event is an operation to run, which answers a next state, or a state already reached. -/
theorem nothingStopsTheMachine : Obligations.NothingStopsTheMachine := ⟨exists_exec_eq_next, exists_step_eq_next⟩

end Sys2Proof.Machine

namespace Sys2Proof.Machine

/-! ### The record on the sink (spec/20_memory.md R64, spec/70_reset_and_hazards.md R241)

The invariant reads the encoder's registers and the sink, so only the encoder's part of an edge is of any weight. An idle
encoder meets it, and so does one that has just accepted a request, as it has handed over no byte yet. E-EMIT puts on the
sink the very byte by which the record's first part grows. -/

theorem sinkHoldsRecord_of_idle {s : State} (h : s.enc.st = .idle) : SinkHoldsRecord s := by
  simp [SinkHoldsRecord, h]

/-- The invariant is one of the encoder's registers and the sink. -/
theorem SinkHoldsRecord.congr {s t : State} (h : SinkHoldsRecord s) (henc : t.enc = s.enc) (hsink : t.sink = s.sink) :
    SinkHoldsRecord t := by
  unfold SinkHoldsRecord
  rw [henc, hsink]
  exact h

/-- The register counts the byte handed over: in E_EMIT it does not wrap. -/
theorem toNat_idx_succ_of_emit {u : EncUnit} (hst : u.st = .emit) (h : EncInv u) :
    (u.idx + 1).toNat = u.idx.toNat + 1 := by
  obtain ⟨hemit, _⟩ := h
  obtain ⟨hidx, _, k, _, hcap, _⟩ := hemit hst
  exact toNat_idx_succ (k := k) (by rw [← toNat_capBits, ← hcap]; exact hidx)

theorem sinkHoldsRecord_encAccept (v : Word) (s : State) : SinkHoldsRecord (encAccept v s) := by
  cases hk : select v with
  | none => simp [SinkHoldsRecord, encAccept, hk]
  | some k =>
    rw [encAccept, hk, encAcceptAs_some]
    exact fun _ => ⟨s.sink, (List.append_nil _).symm⟩

theorem sinkHoldsRecord_encEmit {s : State} (hst : s.enc.st = .emit) (hinv : EncInv s.enc) (h : SinkHoldsRecord s) :
    SinkHoldsRecord (encEmit s) := by
  intro _
  obtain ⟨before, hsink⟩ := h (.inl hst)
  refine ⟨before, ?_⟩
  calc (encEmit s).sink
      = s.sink ++ [byteLane s.enc.buf s.enc.idx.toNat] := rfl
    _ = before ++ (lanes s.enc.idx.toNat s.enc.buf ++ [byteLane s.enc.buf s.enc.idx.toNat]) := by
        rw [hsink, List.append_assoc]
    _ = before ++ lanes (s.enc.idx + 1).toNat s.enc.buf := by
        rw [toNat_idx_succ_of_emit hst hinv, lanes_succ]

theorem sinkHoldsRecord_encEdge (p : Pins) {s : State} (hinv : EncInv s.enc) (h : SinkHoldsRecord s) :
    SinkHoldsRecord (encEdge p s) := by
  rcases encEdge_cases p s with e | ⟨_, v, _, e⟩ | ⟨hst, _, e⟩ | ⟨_, _, e⟩ <;> rw [e]
  · exact h
  · exact sinkHoldsRecord_encAccept v s
  · exact sinkHoldsRecord_encEmit hst hinv h
  · exact sinkHoldsRecord_of_idle rfl

theorem sinkHoldsRecord_clockEdge (p : Pins) {s : State} (hinv : EncInv s.enc) (h : SinkHoldsRecord s) :
    SinkHoldsRecord (clockEdge p s) := by
  cases hr : p.rst with
  | true =>
    rw [clockEdge_reset s hr]
    exact sinkHoldsRecord_of_idle rfl
  | false =>
    rw [clockEdge_run s hr]
    obtain ⟨encEq, sinkEq, _⟩ := encAgree_decEdge_self p (encEdge p s)
    exact (sinkHoldsRecord_encEdge p hinv h).congr encEq sinkEq

/-- A whole `ENC` ends with the encoder idle, and a whole `DEC` touches neither its registers nor the sink. -/
theorem sinkHoldsRecord_exec {i : Instr} {s t : State} (h : SinkHoldsRecord s) (e : exec i s = .next t) :
    SinkHoldsRecord t := by
  rcases exec_cases i s with ⟨k, v, e', _⟩ | ⟨k, b, e', _⟩ | e' <;> cases e'.symm.trans e
  · exact sinkHoldsRecord_of_idle rfl
  · obtain ⟨encEq, sinkEq, _⟩ := decRun_frame k b s
    exact h.congr encEq sinkEq
  · exact h

/-- Settles O42: an edge keeps the record on the sink by the encoder's rows of the register invariants, and a whole
operation does in any case. -/
theorem everyStepKeepsTheRecordOnTheSink : Obligations.EveryStepKeepsTheRecordOnTheSink := by
  rintro s t ⟨henc, _⟩ h hstep
  rcases step_cases hstep with ⟨_, rfl⟩ | ⟨p, rest, _, rfl⟩ | ⟨v, rest, _, e⟩ | ⟨rest, _, hdec⟩
  · exact h
  · exact sinkHoldsRecord_clockEdge p (s := { s with sched := rest }) henc h
  · exact sinkHoldsRecord_exec (s := { s with sched := rest }) h e
  · rcases hdec with ⟨_, rfl⟩ | ⟨_, _, rfl⟩ | ⟨b, i, left, _, _, _, e⟩
    · exact h
    · exact h.congr rfl rfl
    · exact sinkHoldsRecord_exec (s := { s with sched := rest, source := left }) h e

/-! ### The reset edge (spec/70_reset_and_hazards.md R230, R231) -/

theorem step_edge_reset {p : Pins} {rest : List Event} {s : State} (hsched : s.sched = .edge p :: rest)
    (hrst : p.rst = true) : step s = .next { s with sched := rest }.resetEdge := by
  rw [step_edge hsched, clockEdge_reset _ hrst]

/-- Settles O34: with `rst = 1` the step is the reset edge, which writes the units' registers and no stream. -/
theorem resetEdgeMakesBothUnitsIdle : Obligations.ResetEdgeMakesBothUnitsIdle := fun _ _ _ hsched hrst =>
  ⟨_, step_edge_reset hsched hrst, resetEdge_enc_st _, resetEdge_dec_st _, resetEdge_sink _, resetEdge_source _,
    resetEdge_encRsps _, resetEdge_decRsps _, resetEdge_sched _⟩

end Sys2Proof.Machine
